-- ==== Sys2Proof/Word.lean ====
section
/-! DEFINITION. The word of the machine: the type of every register, slot, operand and result (R6, R8, R110). -/

namespace Sys2Proof

/-- One XLEN-bit word, held as the signed number it is read as (R8). XLEN is a field of the configuration, so the range of
a word is no part of its type: the rules wrap every result into it, and State.inv says that every stored word lies in it
(DESIGN CHOICE, log entry 3, safe). -/
abbrev Word := Int

/-- The number is an n-bit word: it lies in the signed range [-2^(n-1), 2^(n-1) - 1] (R8). -/
abbrev isWord (n : Nat) (v : Int) : Prop := -((2 ^ (n - 1) : Nat) : Int) ≤ v ∧ v < ((2 ^ (n - 1) : Nat) : Int)

end Sys2Proof
end

