-- ==== Sys2Proof/Machine/Alu.lean ====
section
/-! DEFINITION. The arithmetic of R110 to R112: compute exactly on integers, then narrow with wrap. -/

namespace Sys2Proof.Machine

/-- wrap(v) of R8: the signed n-bit word congruent to v modulo 2^n. -/
def wrap (n : Nat) (v : Int) : Word := v.bmod (2 ^ n)

/-- unsigned(v) of R8: the bits of an n-bit word read as a number in [0, 2^n - 1]. -/
def unsigned (n : Nat) (v : Word) : Nat := (v % ((2 ^ n : Nat) : Int)).toNat

/-- a + b on n-bit words (R111). -/
def Alu.add (n : Nat) (a b : Word) : Word := wrap n (a + b)

/-- a − b on n-bit words (R111). -/
def Alu.sub (n : Nat) (a b : Word) : Word := wrap n (a - b)

/-- v << amount on n-bit words (R112): the amount is read as unsigned, and an amount of n or more gives 0. -/
def Alu.shiftLeft (n : Nat) (v amount : Word) : Word :=
  if unsigned n amount < n then wrap n (v * ((2 ^ unsigned n amount : Nat) : Int)) else 0

end Sys2Proof.Machine
end

