-- ==== Sys2Proof/Config.lean ====
section
/-! DEFINITION. The configuration of R6 and R7: what is fixed before a run and never changes during it, the constraints
it must meet, the reference configuration, and the one free value of the assembler. -/

namespace Sys2Proof

/-- The twelve opcode numbers OPC_<mnemonic>, with the values R6 and R71 take (UNVERIFIED: the spec's decision D4). -/
structure Opcodes where
  add : Word := 1
  addi : Word := 2
  sub : Word := 3
  subi : Word := 4
  ldur : Word := 5
  stur : Word := 6
  lsl : Word := 7
  cbz : Word := 8
  cbnz : Word := 9
  br : Word := 10
  bl : Word := 11
  b : Word := 12
  deriving DecidableEq, Repr

/-- The opcode numbers in the order of the source's list (R71). -/
def Opcodes.toList (o : Opcodes) : List Word :=
  [o.add, o.addi, o.sub, o.subi, o.ldur, o.stur, o.lsl, o.cbz, o.cbnz, o.br, o.bl, o.b]

/-- R6: the opcode numbers are pairwise distinct and none is 0. -/
abbrev Opcodes.valid (o : Opcodes) : Prop :=
  o.toList.Nodup ∧ (0 : Word) ∉ o.toList

/-- The numbers of STATUS: of the states, of the halt reasons and of the fatal causes, with the values R32 and R151 take
(UNVERIFIED: the spec's decision D16). -/
structure Codes where
  running : Nat := 0
  halted : Nat := 1
  fatal : Nat := 2
  /-- reason NONE -/
  noReason : Nat := 0
  /-- HALT_BR_ZR -/
  brZr : Nat := 1
  /-- HALT_NO_INSTRUCTION -/
  noInstruction : Nat := 2
  /-- cause NONE -/
  noCause : Nat := 0
  /-- STACK_OVERFLOW -/
  stackOverflow : Nat := 1
  /-- PC_INVALID -/
  pcInvalid : Nat := 2
  /-- MEM_BOUNDS -/
  memBounds : Nat := 3
  /-- REG_INDEX -/
  regIndex : Nat := 4
  deriving DecidableEq, Repr

/-- The numbers tell the outcomes apart (DEDUCED from "a distinct error outcome is signaled", R6; log entry 16, safe). -/
abbrev Codes.valid (k : Codes) : Prop :=
  [k.running, k.halted, k.fatal].Nodup ∧ [k.noReason, k.brZr, k.noInstruction].Nodup ∧
    [k.noCause, k.stackOverflow, k.pcInvalid, k.memBounds, k.regIndex].Nodup

/-- The parameters of R6 (defaults: the values taken there) and of R7 (no defaults: they stay open).
(DESIGN CHOICE: it travels in State, log entry 1, safe.) -/
structure Config where
  /-- XLEN, the width in bits of every register, record slot and operand field. -/
  xlen : Nat := 32
  /-- NGPR, the number of general registers. -/
  ngpr : Nat := 32
  /-- IDX_ZR, the index of the zero register. -/
  idxZr : Nat := ngpr
  /-- IDX_SP, the index of the stack pointer. -/
  idxSp : Nat := ngpr + 1
  /-- IDX_PC, the index of the program counter. -/
  idxPc : Nat := ngpr + 2
  /-- IDX_LR, the index of the link register. -/
  idxLr : Nat := ngpr + 3
  /-- OPC_<mnemonic>. -/
  opc : Opcodes := {}
  /-- The cause and reason codes. -/
  codes : Codes := {}
  /-- MEMSIZE, the number of addresses. -/
  memSize : Nat
  /-- STACKUPPERBOUND, the highest address of the stack region and the reset value of sp. -/
  stackUpperBound : Nat
  /-- STACKSIZE, the extent of the stack region. -/
  stackSize : Nat
  /-- START_ADDRESS, the reset value of pc. -/
  startAddress : Nat
  deriving DecidableEq, Repr

/-- WIDTH, the number of addresses between consecutive instructions (R5). -/
abbrev Config.width : Nat := 4

/-- NREG, the size of the register index space (R6). -/
abbrev Config.nreg (c : Config) : Nat := c.ngpr + 4

/-- STACK_LOWER, the lowest address of the stack region (R7). -/
abbrev Config.stackLower (c : Config) : Int := (c.stackUpperBound : Int) - c.stackSize

/-- The four reserved indices: zero register, stack pointer, program counter, link register (R21). -/
abbrev Config.reserved (c : Config) : List Nat := [c.idxZr, c.idxSp, c.idxPc, c.idxLr]

/-- R5 and R6 on the register file: at least 32 general registers; four distinct reserved indices, none among the
general ones. (DEDUCED from R21: they lie below NREG, and every index is a non-negative word; log entry 16, safe.) -/
abbrev Config.registersValid (c : Config) : Prop :=
  32 ≤ c.ngpr ∧ c.reserved.Nodup ∧ (∀ i ∈ c.reserved, c.ngpr ≤ i ∧ i < c.nreg) ∧ c.nreg ≤ 2 ^ (c.xlen - 1)

/-- R6 and R7 on memory: every address and pc + WIDTH of a valid pc is a non-negative word; both ends of the stack
region and the start address are valid addresses. -/
abbrev Config.platformValid (c : Config) : Prop :=
  c.memSize + Config.width < 2 ^ (c.xlen - 1) ∧ c.stackSize ≤ c.stackUpperBound ∧ c.stackUpperBound < c.memSize ∧
    c.startAddress < c.memSize

/-- R6 on words: XLEN is at least 8. (DEDUCED: the opcode numbers are words, since slot 0 is compared with them; log entry
16, safe.) -/
abbrev Config.wordsValid (c : Config) : Prop :=
  8 ≤ c.xlen ∧ ∀ v ∈ c.opc.toList, isWord c.xlen v

/-- The constraints every configuration must meet (R6, R7). -/
abbrev Config.valid (c : Config) : Prop :=
  c.registersValid ∧ c.opc.valid ∧ c.platformValid ∧ c.wordsValid ∧ c.codes.valid

/-- The reference configuration of R7 (DESIGN CHOICE: State.reset uses it, log entry 2, unsafe for a statement about
State.reset alone). -/
def Config.reference : Config :=
  { memSize := 4096, stackUpperBound := 4095, stackSize := 1024, startAddress := 0 }

/-- A free value: the slot the assembler makes of a number outside the signed XLEN-bit range, which the spec does not
state (DESIGN CHOICE, log entry 13, safe: nothing is known of it), for each XLEN. The assembler wraps it, so that the slot
is a word. No instruction reads it. -/
opaque Config.unrepresentable : Nat → Int → Int

end Sys2Proof
end

