-- ==== Sys2Proof/Syntax.lean ====
section
/-! DEFINITION. The syntax: instruction records, mnemonics, formats, register banks and instructions (R21, R60 to R71). -/

namespace Sys2Proof

/-- A record of four slots: opcode, operand1, operand2, operand3 (R35, R60). -/
structure Record where
  s0 : Word
  s1 : Word
  s2 : Word
  s3 : Word
  deriving DecidableEq, Repr

/-- Every slot is an n-bit word (R36). -/
abbrev Record.fits (n : Nat) (r : Record) : Prop := isWord n r.s0 ∧ isWord n r.s1 ∧ isWord n r.s2 ∧ isWord n r.s3

/-- The all-zero record, which an address nothing was loaded into holds (R44, R172). -/
def Record.zero : Record := ⟨0, 0, 0, 0⟩

/-- The twelve recognized mnemonics, a closed set (R5). -/
inductive Mnemonic where
  | add | addi | sub | subi | ldur | stur | lsl | cbz | cbnz | br | bl | b
  deriving DecidableEq, Repr

/-- The six operand shapes (R63 to R68). -/
inductive Format where
  /-- three register operands (R63) -/
  | f3r
  /-- two registers and an immediate (R64) -/
  | f2ri
  /-- a data register, a base register and an offset (R65) -/
  | fmem
  /-- a register and an absolute target (R66) -/
  | fcb
  /-- one register (R67) -/
  | fbr
  /-- one absolute target (R68) -/
  | fb
  deriving DecidableEq, Repr

/-- The five banks of the register file (R21). -/
inductive Bank where
  | general (i : Nat)
  | zero
  | stackPointer
  | programCounter
  | link
  deriving DecidableEq, Repr

/-- The instructions, one constructor per row of the opcode table. A register field is the whole slot: whether it names
a register is checked when the instruction runs (R69, R96). -/
inductive Instr where
  /-- ADD (R113) -/
  | add (rd rn rm : Word)
  /-- ADDI (R114) -/
  | addi (rd rn imm : Word)
  /-- SUB (R115) -/
  | sub (rd rn rm : Word)
  /-- SUBI (R116) -/
  | subi (rd rn imm : Word)
  /-- LDUR (R121) -/
  | ldur (rt rn imm : Word)
  /-- STUR (R122) -/
  | stur (rt rn imm : Word)
  /-- LSL (R117) -/
  | lsl (rd rn imm : Word)
  /-- CBZ (R131) -/
  | cbz (rt target : Word)
  /-- CBNZ (R132) -/
  | cbnz (rt target : Word)
  /-- BR (R133) -/
  | br (rn : Word)
  /-- BL (R134) -/
  | bl (target : Word)
  /-- B (R135) -/
  | b (target : Word)
  /-- No instruction: slot 0 holds `opcode`, which is none of the twelve numbers (R140) -/
  | noInstruction (opcode : Word)
  deriving DecidableEq, Repr

end Sys2Proof
end

