-- ==== Sys2Proof/Decode.lean ====
section
/-! DEFINITION. The opcode map, the decoder, and after them the encoder and the numbering of a record's bits
(R62 to R73). -/

namespace Sys2Proof

/-! ## The opcode map -/

/-- The mnemonics in the order of the source's list (R71). -/
def Mnemonic.all : List Mnemonic :=
  [.add, .addi, .sub, .subi, .ldur, .stur, .lsl, .cbz, .cbnz, .br, .bl, .b]

/-- The opcode number of a mnemonic (R71). -/
def Opcodes.number (o : Opcodes) : Mnemonic → Word
  | .add => o.add
  | .addi => o.addi
  | .sub => o.sub
  | .subi => o.subi
  | .ldur => o.ldur
  | .stur => o.stur
  | .lsl => o.lsl
  | .cbz => o.cbz
  | .cbnz => o.cbnz
  | .br => o.br
  | .bl => o.bl
  | .b => o.b

/-- The mnemonic an opcode slot selects: all XLEN bits are compared with the twelve numbers (R72, R95). -/
def Opcodes.lookup (o : Opcodes) (w : Word) : Option Mnemonic :=
  Mnemonic.all.find? fun m => o.number m == w

/-- The format of each mnemonic (R71). -/
def Mnemonic.format : Mnemonic → Format
  | .add | .sub => .f3r
  | .addi | .subi | .lsl => .f2ri
  | .ldur | .stur => .fmem
  | .cbz | .cbnz => .fcb
  | .br => .fbr
  | .bl | .b => .fb

/-- How many operand slots a format uses (R63 to R68, R78). -/
def Format.arity : Format → Nat
  | .f3r | .f2ri | .fmem => 3
  | .fcb => 2
  | .fbr | .fb => 1

/-! ## The decoder -/

/-- Decode (R72): total on records; the opcode slot alone selects the instruction, unused slots are not read (R70), and
every other opcode value is no instruction (R73). -/
def decode (o : Opcodes) (r : Record) : Instr :=
  match o.lookup r.s0 with
  | some .add => .add r.s1 r.s2 r.s3
  | some .addi => .addi r.s1 r.s2 r.s3
  | some .sub => .sub r.s1 r.s2 r.s3
  | some .subi => .subi r.s1 r.s2 r.s3
  | some .ldur => .ldur r.s1 r.s2 r.s3
  | some .stur => .stur r.s1 r.s2 r.s3
  | some .lsl => .lsl r.s1 r.s2 r.s3
  | some .cbz => .cbz r.s1 r.s2
  | some .cbnz => .cbnz r.s1 r.s2
  | some .br => .br r.s1
  | some .bl => .bl r.s1
  | some .b => .b r.s1
  | none => .noInstruction r.s0

/-! ## The encoder -/

/-- The mnemonic of an instruction; `none` for no instruction. -/
def Instr.mnemonic : Instr → Option Mnemonic
  | .add .. => some .add
  | .addi .. => some .addi
  | .sub .. => some .sub
  | .subi .. => some .subi
  | .ldur .. => some .ldur
  | .stur .. => some .stur
  | .lsl .. => some .lsl
  | .cbz .. => some .cbz
  | .cbnz .. => some .cbnz
  | .br .. => some .br
  | .bl .. => some .bl
  | .b .. => some .b
  | .noInstruction .. => none

/-- The record of an instruction, written from the tables of R63 to R68 and R84; an unused slot is 0, as the assembler
writes it. -/
def encode (o : Opcodes) : Instr → Record
  | .add rd rn rm => ⟨o.add, rd, rn, rm⟩
  | .addi rd rn imm => ⟨o.addi, rd, rn, imm⟩
  | .sub rd rn rm => ⟨o.sub, rd, rn, rm⟩
  | .subi rd rn imm => ⟨o.subi, rd, rn, imm⟩
  | .ldur rt rn imm => ⟨o.ldur, rt, rn, imm⟩
  | .stur rt rn imm => ⟨o.stur, rt, rn, imm⟩
  | .lsl rd rn imm => ⟨o.lsl, rd, rn, imm⟩
  | .cbz rt target => ⟨o.cbz, rt, target, 0⟩
  | .cbnz rt target => ⟨o.cbnz, rt, target, 0⟩
  | .br rn => ⟨o.br, rn, 0, 0⟩
  | .bl target => ⟨o.bl, target, 0, 0⟩
  | .b target => ⟨o.b, target, 0, 0⟩
  | .noInstruction opcode => ⟨opcode, 0, 0, 0⟩

/-- The slot names a register: 0 ≤ slot < NREG, read as a signed number (R69, R96). -/
def Config.isReg (c : Config) (slot : Word) : Bool :=
  0 ≤ slot && slot < c.nreg

/-- The fields of an instruction that are register indices, in slot order (R96). -/
def Instr.regFields : Instr → List Word
  | .add rd rn rm => [rd, rn, rm]
  | .addi rd rn _ => [rd, rn]
  | .sub rd rn rm => [rd, rn, rm]
  | .subi rd rn _ => [rd, rn]
  | .ldur rt rn _ => [rt, rn]
  | .stur rt rn _ => [rt, rn]
  | .lsl rd rn _ => [rd, rn]
  | .cbz rt _ => [rt]
  | .cbnz rt _ => [rt]
  | .br rn => [rn]
  | .bl _ => []
  | .b _ => []
  | .noInstruction _ => []

/-- The operands of an instruction, in slot order; of no instruction, the opcode value. -/
def Instr.operands : Instr → List Word
  | .add rd rn rm => [rd, rn, rm]
  | .addi rd rn imm => [rd, rn, imm]
  | .sub rd rn rm => [rd, rn, rm]
  | .subi rd rn imm => [rd, rn, imm]
  | .ldur rt rn imm => [rt, rn, imm]
  | .stur rt rn imm => [rt, rn, imm]
  | .lsl rd rn imm => [rd, rn, imm]
  | .cbz rt target => [rt, target]
  | .cbnz rt target => [rt, target]
  | .br rn => [rn]
  | .bl target => [target]
  | .b target => [target]
  | .noInstruction opcode => [opcode]

/-! ## A record as one number -/

open Machine (wrap unsigned)

/-- The packed image of R62 at XLEN = n, as a number of 4·n bits: slot 0 in the least significant n bits. -/
def Record.packed (n : Nat) (r : Record) : Nat :=
  unsigned n r.s0 + 2 ^ n * (unsigned n r.s1 + 2 ^ n * (unsigned n r.s2 + 2 ^ n * unsigned n r.s3))

/-- The record whose packed image (R62) at XLEN = n is the number `w`. -/
def Record.ofNat (n w : Nat) : Record :=
  ⟨wrap n w, wrap n (w / 2 ^ n : Nat), wrap n (w / 2 ^ (2 * n) : Nat), wrap n (w / 2 ^ (3 * n) : Nat)⟩

/-- What the decoder reads, in the reference configuration (XLEN = 32, the opcode numbers of R71), from a record whose low
`nbits` bits are `w` and whose other bits are 0. The decoder refuses nothing: an unrecognized opcode is the instruction NO_INSTRUCTION (R73). -/
def decodeTableWord (nbits w : Nat) : Option Instr :=
  some (decode Config.reference.opc (Record.ofNat Config.reference.xlen (w % 2 ^ nbits)))

end Sys2Proof
end

