-- ==== Sys2Proof/Machine/Flags.lean ====
section
/-! DEFINITION. The machine has no flags (R31). What instructions test instead: a register against zero, and a result
against one end of the stack region. -/

namespace Sys2Proof.Machine

/-- The test of CBZ and CBNZ: all XLEN bits against zero (R31, R131, R132). -/
def isZero (v : Word) : Bool := v == 0

/-- The test of ADDI on sp: res >s STACKUPPERBOUND (R114, R118). -/
def aboveStack (c : Config) (res : Word) : Bool := (c.stackUpperBound : Int) < res

/-- The test of SUBI on sp: res <s STACK_LOWER (R116, R118). -/
def belowStack (c : Config) (res : Word) : Bool := res < c.stackLower

end Sys2Proof.Machine
end

