-- ==== Sys2Proof/Machine/State.lean ====
section
/-! DEFINITION. The state of the machine, the reasons a step can stop, and the state after reset (R20 to R37, R170). -/

namespace Sys2Proof.Machine

/-- STATUS.state, the state of the fetch-decode-execute machine (R32, R91). -/
inductive RunState where
  | running
  | halted
  | fatal
  deriving DecidableEq, Repr

/-- STATUS.reason, why the run halted (R32, R151). -/
inductive HaltReason where
  | none
  /-- HALT_BR_ZR -/
  | brZr
  /-- HALT_NO_INSTRUCTION -/
  | noInstruction
  deriving DecidableEq, Repr

/-- STATUS.cause, which fatal condition (R32, R151). -/
inductive Cause where
  | none
  /-- STACK_OVERFLOW -/
  | stackOverflow
  /-- PC_INVALID -/
  | pcInvalid
  /-- MEM_BOUNDS -/
  | memBounds
  /-- REG_INDEX -/
  | regIndex
  deriving DecidableEq, Repr

/-- STATUS (R32). -/
structure Status where
  state : RunState := .running
  reason : HaltReason := .none
  cause : Cause := .none
  info : Word := 0
  deriving DecidableEq, Repr

/-- Program memory: the records that are not all zero, each with its address, by rising address (R35; DESIGN CHOICE:
records, not bytes, as R47 asks, log entry 4, safe). -/
abbrev Memory := List (Nat × Record)

/-- The whole state (R20), with the configuration it runs under (log entry 1). -/
structure State where
  /-- R6, R7: never changed by a step. -/
  config : Config
  /-- The general bank, x[0] .. x[NGPR-1] (R22). -/
  gprs : List Word
  /-- The stack pointer (R24). -/
  sp : Word
  /-- The program counter (R28). -/
  pc : Word
  /-- The link register (R25). -/
  lr : Word
  /-- Program memory (R35). -/
  mem : Memory
  /-- The status register (R32). -/
  status : Status
  deriving DecidableEq, Repr

/-- Reasons for a fault at the host's interface. There is none: the spec describes the state every fatal condition
leaves, so a fatal condition is a NEXT state whose STATUS says FATAL (R11, R159; log entry 6, safe), and no step faults. -/
inductive Fault where
  deriving DecidableEq, Repr

/-- Reasons for a refusal. -/
inductive Refusal where
  /-- Raised by exec for an instruction that has no meaning yet, by its mnemonic: safe. No arm answers it. -/
  | notModelled (mnemonic : String)
  deriving DecidableEq, Repr

/-- The outcome of a step. -/
abbrev Result := Host.Outcome State Fault Refusal

/-- The state after reset in a configuration (R37, R170 to R173). The zeros of the general registers, lr and slots 1 to 3
are the spec's decision D14 (UNVERIFIED, log entry 5, unsafe). -/
def State.resetWith (c : Config) : State :=
  { config := c
    gprs := List.replicate c.ngpr 0
    sp := c.stackUpperBound
    pc := c.startAddress
    lr := 0
    mem := []
    status := {} }

/-- The state after reset in the reference configuration of R7 (log entry 2). -/
def State.reset : State := State.resetWith Config.reference

end Sys2Proof.Machine
end

