-- ==== Sys2Proof/Machine/Ops.lean ====
section
/-! DEFINITION. The named operations over memory, registers and STATUS (R9 to R11), the program load (R174), the reset
operation (R170), and the two ways a run ends. -/

namespace Sys2Proof

/-- ValidAddr(a) (R41), on an integer. -/
def Config.validAddr (c : Config) (a : Int) : Bool := 0 ≤ a && a < c.memSize

/-- The bank an index belongs to (R21). -/
def Config.bank (c : Config) (i : Nat) : Bank :=
  if i = c.idxZr then .zero
  else if i = c.idxPc then .programCounter
  else if i = c.idxSp then .stackPointer
  else if i = c.idxLr then .link
  else .general i

end Sys2Proof

namespace Sys2Proof.Machine

/-! ## Memory -/

/-- Mem[a] (R10): an address that is not listed holds the all-zero record (R44, R172). -/
def Memory.read : Memory → Nat → Record
  | [], _ => .zero
  | (k, r) :: rest, a => if k = a then r else Memory.read rest a

/-- Mem[a] <- r, keeping the canonical form: rising addresses, no all-zero record listed. -/
def Memory.write : Memory → Nat → Record → Memory
  | [], a, r => if r = .zero then [] else [(a, r)]
  | (k, q) :: rest, a, r =>
    if a < k then (if r = .zero then (k, q) :: rest else (a, r) :: (k, q) :: rest)
    else if a = k then (if r = .zero then rest else (a, r) :: rest)
    else (k, q) :: Memory.write rest a r

/-- MemWrite(a, 1, v) (R10): slot 0 takes v, slots 1 to 3 stay (R122). -/
def Memory.storeSlot0 (m : Memory) (a : Nat) (v : Word) : Memory :=
  m.write a { m.read a with s0 := v }

/-- The canonical form of memory. -/
def Memory.wf : Memory → Bool
  | [] => true
  | (k, r) :: rest => r != .zero && rest.all (fun e => k < e.1) && Memory.wf rest

/-! ## Registers -/

/-- x[i] (R9): the zero register reads 0, the pc is an entry like the others (R23, R26). -/
def State.x (s : State) (i : Nat) : Word :=
  match s.config.bank i with
  | .zero => 0
  | .programCounter => s.pc
  | .stackPointer => s.sp
  | .link => s.lr
  | .general n => s.gprs.getD n 0

/-- x[i] <- v (R9): a write to the zero register is discarded (R23). -/
def State.setX (s : State) (i : Nat) (v : Word) : State :=
  match s.config.bank i with
  | .zero => s
  | .programCounter => { s with pc := v }
  | .stackPointer => { s with sp := v }
  | .link => { s with lr := v }
  | .general n => { s with gprs := s.gprs.set n v }

/-- pc <- t (R9). -/
def State.setPc (s : State) (t : Word) : State := { s with pc := t }

/-- The address WIDTH after pc: wrap(pc + WIDTH) (R29). -/
def State.nextPc (s : State) : Word := wrap s.config.xlen (s.pc + Config.width)

/-- pc <- wrap(pc + WIDTH), from the value pc has now (R29, R97). -/
def State.advance (s : State) : State := s.setPc s.nextPc

/-- lr <- v (R25). -/
def State.setLr (s : State) (v : Word) : State := { s with lr := v }

/-- MemWrite on the state's memory. -/
def State.store (s : State) (a : Nat) (v : Word) : State := { s with mem := s.mem.storeSlot0 a v }

/-! ## Terminal states

There is no handler, no saved pc and no return (R159, R161): entering a terminal state is one assignment to STATUS, and
only reset leaves it. -/

/-- halt(reason) (R11): pc and everything else stay. -/
def State.halt (s : State) (reason : HaltReason) : State :=
  { s with status := { s.status with state := .halted, reason := reason } }

/-- raise Fatal(cause, info) (R11): pc and everything else stay. -/
def State.fatal (s : State) (cause : Cause) (info : Word) : State :=
  { s with status := { s.status with state := .fatal, cause := cause, info := info } }

/-- Reset() (R170): every piece of state takes its reset value, from any prior state; the configuration stays. -/
def State.resetAgain (s : State) : State := State.resetWith s.config

/-! ## The numbers of STATUS (R6, R32, R151) -/

/-- The number of STATUS.state. -/
def RunState.code (k : Codes) : RunState → Nat
  | .running => k.running
  | .halted => k.halted
  | .fatal => k.fatal

/-- The number of STATUS.reason. -/
def HaltReason.code (k : Codes) : HaltReason → Nat
  | .none => k.noReason
  | .brZr => k.brZr
  | .noInstruction => k.noInstruction

/-- The number of STATUS.cause. -/
def Cause.code (k : Codes) : Cause → Nat
  | .none => k.noCause
  | .stackOverflow => k.stackOverflow
  | .pcInvalid => k.pcInvalid
  | .memBounds => k.memBounds
  | .regIndex => k.regIndex

/-- STATUS as numbers: state, reason, cause and info. -/
def Status.numbers (k : Codes) (st : Status) : Nat × Nat × Nat × Word :=
  (st.state.code k, st.reason.code k, st.cause.code k, st.info)

/-! ## The program load -/

/-- Load(address, record) (R174): the record is cleared, then takes the new slots; `none` is the refusal of an address
that is not valid, with nothing written. -/
def State.load (s : State) (address : Int) (r : Record) : Option State :=
  if s.config.validAddr address then
    some { s with mem := (s.mem.write address.toNat .zero).write address.toNat r }
  else none

/-- A load whose refusal is passed over: nothing is loaded (R76). -/
def State.loadOrSkip (s : State) (line : Int × Record) : State := (s.load line.1 line.2).getD s

/-- Boot (R175): reset, then the loads in the order given. -/
def State.boot (c : Config) (image : List (Int × Record)) : State :=
  image.foldl State.loadOrSkip (State.resetWith c)

end Sys2Proof.Machine
end

