-- ==== Sys2Proof/Machine/Operands.lean ====
section
/-! DEFINITION. The operand forms of R69 and the checks an instruction's rule makes: register fields (R96), effective
addresses (R120), the stack-bound check (R118). -/

namespace Sys2Proof.Machine

/-- The register a field names, read: x[slot]. -/
def State.reg (s : State) (slot : Word) : Word := s.x slot.toNat

/-- The register a field names, written: x[slot] <- v. -/
def State.setReg (s : State) (slot v : Word) : State := s.setX slot.toNat v

/-- The field is the index `i`. The rules test fields, never register values (R118, R133). -/
def fieldIs (slot : Word) (i : Nat) : Bool := slot.toNat == i

/-- The register-index check (R96): the first field outside [0, NREG), in the order given, raises REG_INDEX with the
field's value and nothing else happens (R155); if there is none, the step ends in `t`. -/
def State.checkRegs (s : State) (fields : List Word) (t : State) : State :=
  match fields.find? (fun w => !s.config.isReg w) with
  | some bad => s.fatal .regIndex bad
  | none => t

/-- ea = wrap(x[op2] + op3): the one addressing mode, an unscaled offset in records (R120). -/
def State.effectiveAddress (s : State) (rn imm : Word) : Word := Alu.add s.config.xlen (s.reg rn) imm

/-- The address check of a load or a store (R120, R154): an invalid address raises MEM_BOUNDS before anything changes. -/
def State.checkAddr (s : State) (ea : Word) (t : State) : State :=
  if s.config.validAddr ea then t else s.fatal .memBounds ea

/-- The stack-bound check (R118), made after the destination is written and before pc is advanced: `bad` raises
STACK_OVERFLOW with the result and keeps the write. -/
def State.advanceUnless (s : State) (bad : Bool) (res : Word) : State :=
  if bad then s.fatal .stackOverflow res else s.advance

end Sys2Proof.Machine
end

