-- ==== Sys2Proof/Machine/Arith.lean ====
section
/-! DEFINITION. ADD, ADDI, SUB, SUBI and LSL (R113 to R118). -/

namespace Sys2Proof.Machine

/-- ADD (R113). -/
def execAdd (rd rn rm : Word) (s : State) : Result :=
  .next (s.checkRegs [rd, rn, rm] (s.setReg rd (Alu.add s.config.xlen (s.reg rn) (s.reg rm))).advance)

/-- ADDI (R114), with the upper stack-bound check on the source field (R118). -/
def execAddi (rd rn imm : Word) (s : State) : Result :=
  let res := Alu.add s.config.xlen (s.reg rn) imm
  .next (s.checkRegs [rd, rn]
    ((s.setReg rd res).advanceUnless (fieldIs rn s.config.idxSp && aboveStack s.config res) res))

/-- SUB (R115). -/
def execSub (rd rn rm : Word) (s : State) : Result :=
  .next (s.checkRegs [rd, rn, rm] (s.setReg rd (Alu.sub s.config.xlen (s.reg rn) (s.reg rm))).advance)

/-- SUBI (R116), with the lower stack-bound check on the source field (R118). -/
def execSubi (rd rn imm : Word) (s : State) : Result :=
  let res := Alu.sub s.config.xlen (s.reg rn) imm
  .next (s.checkRegs [rd, rn]
    ((s.setReg rd res).advanceUnless (fieldIs rn s.config.idxSp && belowStack s.config res) res))

/-- LSL (R117). -/
def execLsl (rd rn imm : Word) (s : State) : Result :=
  .next (s.checkRegs [rd, rn] (s.setReg rd (Alu.shiftLeft s.config.xlen (s.reg rn) imm)).advance)

end Sys2Proof.Machine
end

