-- ==== Sys2Proof/Machine/Branch.lean ====
section
/-! DEFINITION. CBZ, CBNZ, BR, BL and B (R130 to R137). Targets are absolute and are not checked here (R137). -/

namespace Sys2Proof.Machine

/-- CBZ (R131). -/
def execCbz (rt target : Word) (s : State) : Result :=
  .next (s.checkRegs [rt] (if isZero (s.reg rt) then s.setPc target else s.advance))

/-- CBNZ (R132). -/
def execCbnz (rt target : Word) (s : State) : Result :=
  .next (s.checkRegs [rt] (if isZero (s.reg rt) then s.advance else s.setPc target))

/-- BR (R133): the halt test is on the field, not on the register's value. -/
def execBr (rn : Word) (s : State) : Result :=
  .next (s.checkRegs [rn] (if fieldIs rn s.config.idxZr then s.halt .brZr else s.setPc (s.reg rn)))

/-- BL (R134): the link value is computed before pc changes. -/
def execBl (target : Word) (s : State) : Result :=
  .next ((s.setLr s.nextPc).setPc target)

/-- B (R135). -/
def execB (target : Word) (s : State) : Result :=
  .next (s.setPc target)

end Sys2Proof.Machine
end

