-- ==== Sys2Proof/Machine/LoadStore.lean ====
section
/-! DEFINITION. LDUR and STUR (R120 to R122). -/

namespace Sys2Proof.Machine

/-- LDUR (R121): slot 0 of the addressed record. -/
def execLdur (rt rn imm : Word) (s : State) : Result :=
  let ea := s.effectiveAddress rn imm
  .next (s.checkRegs [rt, rn] (s.checkAddr ea (s.setReg rt (s.mem.read ea.toNat).s0).advance))

/-- STUR (R122): slot 0 of the addressed record; slots 1 to 3 stay. -/
def execStur (rt rn imm : Word) (s : State) : Result :=
  let ea := s.effectiveAddress rn imm
  .next (s.checkRegs [rt, rn] (s.checkAddr ea (s.store ea.toNat (s.reg rt)).advance))

end Sys2Proof.Machine
end

