-- ==== Sys2Proof/Machine/NoInstruction.lean ====
section
/-! DEFINITION. The unrecognized or zero opcode (R140). -/

namespace Sys2Proof.Machine

/-- No instruction (R140): a normal halt, whatever the opcode value; pc stays. -/
def execNoInstruction (_opcode : Word) (s : State) : Result :=
  .next (s.halt .noInstruction)

end Sys2Proof.Machine
end

