-- ==== Sys2Proof/Machine/Dispatch.lean ====
section
/-! DEFINITION. The dispatch on a decoded instruction: steps 4 and 5 of R92, one arm per instruction (R95). -/

namespace Sys2Proof.Machine

def exec (i : Instr) (s : State) : Host.Outcome State Fault Refusal :=
  match i with
  | .add rd rn rm => Sys2Proof.Machine.execAdd rd rn rm s
  | .addi rd rn imm => Sys2Proof.Machine.execAddi rd rn imm s
  | .sub rd rn rm => Sys2Proof.Machine.execSub rd rn rm s
  | .subi rd rn imm => Sys2Proof.Machine.execSubi rd rn imm s
  | .ldur rt rn imm => Sys2Proof.Machine.execLdur rt rn imm s
  | .stur rt rn imm => Sys2Proof.Machine.execStur rt rn imm s
  | .lsl rd rn imm => Sys2Proof.Machine.execLsl rd rn imm s
  | .cbz rt target => Sys2Proof.Machine.execCbz rt target s
  | .cbnz rt target => Sys2Proof.Machine.execCbnz rt target s
  | .br rn => Sys2Proof.Machine.execBr rn s
  | .bl target => Sys2Proof.Machine.execBl target s
  | .b target => Sys2Proof.Machine.execB target s
  | .noInstruction opcode => Sys2Proof.Machine.execNoInstruction opcode s

end Sys2Proof.Machine
end

