-- ==== Sys2Proof/Machine/Fetch.lean ====
section
/-! DEFINITION. Steps 0 to 3 of R92: the terminal states, the fetch and the decode; and the placing of a record where the
next fetch reads. -/

namespace Sys2Proof.Machine

/-- The record at pc, as memory holds it now (R94, R54). -/
def State.fetched (s : State) : Record := s.mem.read s.pc.toNat

/-- Steps 0 to 3 of R92. `.error t`: the step ends in `t` without an instruction, either because the state is terminal
and nothing changes (R98), or because pc is not a valid address (R94, R153). `.ok i`: the decoded instruction. -/
def State.fetchDecode (s : State) : Except State Instr :=
  if s.status.state ≠ .running then .error s
  else if s.config.validAddr s.pc then .ok (decode s.config.opc s.fetched)
  else .error (s.fatal .pcInvalid s.pc)

/-- The state with a record placed at pc (if pc is a valid address) and the machine running, so that the next step
fetches it. It stands for a program load (log entry 11). -/
def State.placeAtPc (s : State) (r : Record) : State :=
  if s.config.validAddr s.pc then { s with mem := s.mem.write s.pc.toNat r, status := {} }
  else s

end Sys2Proof.Machine
end

