-- ==== Sys2Proof/Machine/Step.lean ====
section
/-! DEFINITION. The step function (R92). The event of its last line is computed beside it, in Machine/Event.lean. -/

namespace Sys2Proof.Machine

/-- Step() (R92). -/
def step (s : State) : Host.Outcome State Fault Refusal :=
  match s.fetchDecode with
  | .error t => .next t
  | .ok i => exec i s

/-- `s` with the record whose low `nbits` bits are `w` (R62), its other bits 0, where the next step fetches. -/
def State.withFetchWord (s : State) (nbits w : Nat) : State :=
  s.placeAtPc (Record.ofNat s.config.xlen (w % 2 ^ nbits))

end Sys2Proof.Machine
end

