-- ==== Sys2Proof/Machine/Assembler.lean ====
section
/-! DEFINITION. The assembler parseLine, the names of registers, and the canonical spelling (R75 to R84). It runs before
the machine starts; the machine sees only the records. Text is a list of characters. -/

namespace Sys2Proof.Machine.Assembler

/-! ## Characters and numbers -/

/-- The tokens of a line: its runs of characters that are no white space (R75). `acc` is the token being read. -/
def tokensFrom (acc : List Char) : List Char → List (List Char)
  | [] => if acc = [] then [] else [acc]
  | c :: cs =>
    if c.isWhitespace then
      (if acc = [] then tokensFrom [] cs else acc :: tokensFrom [] cs)
    else tokensFrom (acc ++ [c]) cs

/-- The tokens of a line (R75). -/
def tokens (line : List Char) : List (List Char) := tokensFrom [] line

/-- The number spelt by the decimal digits in front, after those read into `acc`, and the rest (R79 case 6). -/
def digitsFrom (acc : Nat) : List Char → Nat × List Char
  | [] => (acc, [])
  | c :: cs => if c.isDigit then digitsFrom (10 * acc + (c.toNat - '0'.toNat)) cs else (acc, c :: cs)

/-- The unsigned decimal number a text starts with, and the rest. -/
def leadingNat : List Char → Option (Nat × List Char)
  | [] => none
  | c :: cs => if c.isDigit then some (digitsFrom 0 (c :: cs)) else none

/-- The decimal integer a text starts with, with an optional sign, and the rest (R79 cases 4 and 5). -/
def leadingInt : List Char → Option (Int × List Char)
  | '-' :: cs => (leadingNat cs).map fun p => (-(p.1 : Int), p.2)
  | '+' :: cs => (leadingNat cs).map fun p => ((p.1 : Int), p.2)
  | cs => (leadingNat cs).map fun p => ((p.1 : Int), p.2)

/-- The integer a text starts with; 0 where there are no digits (R79 case 7, R81). -/
def numberOrZero (t : List Char) : Int :=
  match leadingInt t with
  | some (n, _) => n
  | none => 0

/-- The integer a whole token spells, if it spells one (R76, R77; DEDUCED: digits followed by other characters are no
integer, log entry 12). -/
def wholeInt (t : List Char) : Option Int :=
  match leadingInt t with
  | some (n, []) => some n
  | some (_, _ :: _) => none
  | none => none

/-- A number as a slot. Outside the signed XLEN-bit range the spec states no slot: a word that is a free value (log entry
13). -/
def toSlot (c : Config) (n : Int) : Word :=
  if isWord c.xlen n then n else wrap c.xlen (Config.unrepresentable c.xlen n)

/-- The text starts with the upper-case `name`, in any mixture of cases (R80). -/
def startsWith (name t : List Char) : Bool := (t.take name.length).map Char.toUpper == name

/-! ## Register names and operand tokens -/

/-- The name of the zero register (R80). -/
def nameZr : List Char := ['X', 'Z', 'R']

/-- The name of the stack pointer (R80). -/
def nameSp : List Char := ['S', 'P']

/-- The name of the link register (R80). -/
def nameLr : List Char := ['L', 'R']

/-- The register number after the letter X; without digits the token spells no number and is 0 (R79 cases 3, 5, 7). -/
def afterX (t : List Char) : Int :=
  match leadingNat t with
  | some (n, _) => n
  | none => 0

/-- The value of an operand token without its leading brackets (R79 cases 2 to 7). -/
def resolveBare (c : Config) (t : List Char) : Int :=
  if startsWith nameZr t then c.idxZr
  else if startsWith nameSp t then c.idxSp
  else if startsWith nameLr t then c.idxLr
  else match t with
    | 'X' :: cs => afterX cs
    | 'x' :: cs => afterX cs
    | '#' :: cs => numberOrZero cs
    | cs => numberOrZero cs

/-- The value of an operand token (R79): every leading bracket is skipped. -/
def resolve (c : Config) (t : List Char) : Int := resolveBare c (t.dropWhile (· == '['))

/-- The character of a decimal digit. -/
def digitChar (d : Nat) : Char := Char.ofNat ('0'.toNat + d)

/-- At least one decimal digit of `n`, at most as many as the first argument plus one. -/
def decimalFuel : Nat → Nat → List Char
  | 0, n => [digitChar (n % 10)]
  | f + 1, n => if n < 10 then [digitChar n] else decimalFuel f (n / 10) ++ [digitChar (n % 10)]

/-- The decimal spelling of `n`. -/
def decimal (n : Nat) : List Char := decimalFuel n n

/-- The decimal spelling of an integer, with a sign if it is negative. -/
def decimalInt (n : Int) : List Char :=
  if n < 0 then '-' :: decimal n.natAbs else decimal n.natAbs

/-- formatOperand(index) (R83); the program counter has no name. -/
def formatOperand (c : Config) (i : Nat) : List Char :=
  if i = c.idxZr then nameZr
  else if i = c.idxSp then nameSp
  else if i = c.idxLr then nameLr
  else 'X' :: decimal i

/-! ## Lines -/

/-- The spelling of a mnemonic (R71). -/
def mnemonicName : Mnemonic → List Char
  | .add => ['A', 'D', 'D']
  | .addi => ['A', 'D', 'D', 'I']
  | .sub => ['S', 'U', 'B']
  | .subi => ['S', 'U', 'B', 'I']
  | .ldur => ['L', 'D', 'U', 'R']
  | .stur => ['S', 'T', 'U', 'R']
  | .lsl => ['L', 'S', 'L']
  | .cbz => ['C', 'B', 'Z']
  | .cbnz => ['C', 'B', 'N', 'Z']
  | .br => ['B', 'R']
  | .bl => ['B', 'L']
  | .b => ['B']

/-- The mnemonic a token spells, in either case (R77; DEDUCED: mixed cases too, log entry 15). -/
def mnemonicNamed (t : List Char) : Option Mnemonic :=
  Mnemonic.all.find? fun m => mnemonicName m == t.map Char.toUpper

/-- The number an opcode token stands for: a mnemonic's number, a raw integer, or 0 (R77, R81). -/
def opcodeNumber (c : Config) (t : List Char) : Int :=
  match mnemonicNamed t with
  | some m => c.opc.number m
  | none => (wholeInt t).getD 0

/-- How many operand tokens are read under an opcode number, which may be an integer that is no word (R78). -/
def operandCount (c : Config) (opcode : Int) : Nat :=
  match c.opc.lookup opcode with
  | some m => m.format.arity
  | none => 3

/-- Operand slot `k` of a line with `arity` operands: an absent token, and a slot beyond the arity, is 0 (R78). -/
def operandSlot (c : Config) (arity : Nat) (ops : List (List Char)) (k : Nat) : Word :=
  if k < arity then
    match ops[k]? with
    | some t => toSlot c (resolve c t)
    | none => 0
  else 0

/-- The record of a line's tokens after the address. A line without an opcode token has opcode 0 (R174; log entry 14). -/
def recordOf (c : Config) : List (List Char) → Record
  | [] => .zero
  | t :: ops =>
    let opcode := opcodeNumber c t
    let arity := operandCount c opcode
    ⟨toSlot c opcode, operandSlot c arity ops 0, operandSlot c arity ops 1, operandSlot c arity ops 2⟩

/-- parseLine(text) (R75 to R81): the address and the record; a line without a token gives none (log entry 14). -/
def parseLine (c : Config) (line : List Char) : Option (Int × Record) :=
  match tokens line with
  | [] => none
  | t :: rest => some ((wholeInt t).getD 0, recordOf c rest)

/-- The loads of a program text, line by line, in the order of the lines (R75, R82). -/
def image (c : Config) (lines : List (List Char)) : List (Int × Record) := lines.filterMap (parseLine c)

/-- The machine after reset and the loads of a program text (R175). -/
def bootText (c : Config) (lines : List (List Char)) : State := State.boot c (image c lines)

/-! ## Canonical spelling -/

/-- A register field by its name (R83). -/
def fieldName (c : Config) (slot : Word) : List Char := formatOperand c slot.toNat

/-- An immediate (R84). -/
def immName (imm : Word) : List Char := '#' :: decimalInt imm

/-- The separator after an operand that is not the last. -/
def comma : List Char := [',', ' ']

/-- A line's mnemonic and the space after it. -/
def head (m : Mnemonic) : List Char := mnemonicName m ++ [' ']

/-- The canonical spelling of an instruction (R84); of no instruction, the data word. -/
def canonicalText (c : Config) : Instr → List Char
  | .add rd rn rm => head .add ++ fieldName c rd ++ comma ++ fieldName c rn ++ comma ++ fieldName c rm
  | .addi rd rn imm => head .addi ++ fieldName c rd ++ comma ++ fieldName c rn ++ comma ++ immName imm
  | .sub rd rn rm => head .sub ++ fieldName c rd ++ comma ++ fieldName c rn ++ comma ++ fieldName c rm
  | .subi rd rn imm => head .subi ++ fieldName c rd ++ comma ++ fieldName c rn ++ comma ++ immName imm
  | .ldur rt rn imm => head .ldur ++ fieldName c rt ++ comma ++ '[' :: fieldName c rn ++ comma ++ immName imm ++ [']']
  | .stur rt rn imm => head .stur ++ fieldName c rt ++ comma ++ '[' :: fieldName c rn ++ comma ++ immName imm ++ [']']
  | .lsl rd rn imm => head .lsl ++ fieldName c rd ++ comma ++ fieldName c rn ++ comma ++ immName imm
  | .cbz rt target => head .cbz ++ fieldName c rt ++ comma ++ decimalInt target
  | .cbnz rt target => head .cbnz ++ fieldName c rt ++ comma ++ decimalInt target
  | .br rn => head .br ++ fieldName c rn
  | .bl target => head .bl ++ decimalInt target
  | .b target => head .b ++ decimalInt target
  | .noInstruction opcode => decimalInt opcode

/-- The canonical line of an instruction at an address (R84). -/
def canonicalLine (c : Config) (a : Nat) (i : Instr) : List Char := decimal a ++ ' ' :: canonicalText c i

end Sys2Proof.Machine.Assembler
end

