-- ==== Sys2Proof/Machine/Event.lean ====
section
/-! DEFINITION. The event of a step (R100), and the events of a run: outputs, not state. -/

namespace Sys2Proof.Machine

/-- The event record (R100). -/
structure Event where
  /-- pc at the start of the step -/
  addr : Word
  /-- the fetched slots -/
  opcode : Word
  op1 : Word
  op2 : Word
  op3 : Word
  /-- for each register field, in slot order: the index and x[index] after the step's effects -/
  regs : List (Word × Word)
  /-- for LDUR and STUR: the effective address, and whether op2 is IDX_SP -/
  access : Option (Word × Bool)
  deriving DecidableEq, Repr

/-- The memory access of an instruction about to run: its effective address and the sp_relative mark (R100, R120). -/
def State.accessOf (s : State) : Instr → Option (Word × Bool)
  | .ldur _ rn imm => some (s.effectiveAddress rn imm, fieldIs rn s.config.idxSp)
  | .stur _ rn imm => some (s.effectiveAddress rn imm, fieldIs rn s.config.idxSp)
  | .add .. => none
  | .addi .. => none
  | .sub .. => none
  | .subi .. => none
  | .lsl .. => none
  | .cbz .. => none
  | .cbnz .. => none
  | .br .. => none
  | .bl .. => none
  | .b .. => none
  | .noInstruction .. => none

/-- The event of instruction `i` run in `s` and completed in `t`. -/
def State.eventBetween (s t : State) (i : Instr) : Event :=
  { addr := s.pc
    opcode := s.fetched.s0
    op1 := s.fetched.s1
    op2 := s.fetched.s2
    op3 := s.fetched.s3
    regs := i.regFields.map fun slot => (slot, t.reg slot)
    access := s.accessOf i }

/-- The event the step from `s` emits: a step that ends in RUNNING emits one, every other step none (R98, R100). -/
def State.event (s : State) : Option Event :=
  match s.fetchDecode with
  | .error _ => none
  | .ok i =>
    match exec i s with
    | .next t => if t.status.state = .running then some (s.eventBetween t i) else none
    | .fault _ => none
    | .refused _ => none

/-- The events of at most `n` steps of Run(), one for each step that completes in RUNNING, in the order of the steps (R99,
R100). -/
def State.eventsFor : Nat → State → List Event
  | 0, _ => []
  | n + 1, s =>
    if s.status.state = .running then
      match step s with
      | .next t => s.event.toList ++ State.eventsFor n t
      | .fault _ => []
      | .refused _ => []
    else []

end Sys2Proof.Machine
end

