-- ==== Sys2Proof/Machine/Run.lean ====
section
/-! DEFINITION. Runs (R99): the step repeated while the machine is RUNNING. A run may never end, so it is written with a
number of steps, a device of the model and not of the machine (R180). -/

namespace Sys2Proof.Machine

/-- At most `n` steps of Run() (R99). -/
def State.runFor : Nat → State → State
  | 0, s => s
  | n + 1, s =>
    if s.status.state = .running then
      match step s with
      | .next t => State.runFor n t
      | .fault _ => s
      | .refused _ => s
    else s

/-- The run from `s` ends in `t`: the first state that is not RUNNING (R98, R99). -/
def State.endsIn (s t : State) : Prop :=
  ∃ n, s.runFor n = t ∧ t.status.state ≠ .running

end Sys2Proof.Machine
end

