-- ==== Sys2Proof/Machine/HostPort.lean ====
section
/-! DEFINITION. The host interface (R182): the operations a host performs on the core and when each is allowed. The host's
view of where a run stands is kept beside the machine's state, since no rule lets the machine see it (log entry 9). -/

namespace Sys2Proof.Machine

/-- The core as its host holds it. -/
structure Session where
  machine : State
  /-- a step has been requested since the last reset -/
  started : Bool
  deriving DecidableEq, Repr

/-- Why a load is turned away. -/
inductive LoadRefusal where
  /-- the address is not valid (R174): safe -/
  | badAddress
  /-- a step has been requested since the reset, so no load is a move of the host (R51, R175, R182): safe -/
  | runBegun
  deriving DecidableEq, Repr

/-- The first Reset() of a core with a configuration. -/
def Session.powerUp (c : Config) : Session := ⟨State.resetWith c, false⟩

/-- Reset(), any time (R170). -/
def Session.reset (h : Session) : Session := ⟨h.machine.resetAgain, false⟩

/-- Load(address, opcode, op1, op2, op3), after Reset() and before the first Step() (R174, R175). -/
def Session.load (h : Session) (address : Int) (r : Record) : Except LoadRefusal Session :=
  if h.started then .error .runBegun
  else match h.machine.load address r with
    | some s => .ok ⟨s, false⟩
    | none => .error .badAddress

/-- Step(), any time after reset, with the event it emits (R92, R100). -/
def Session.step (h : Session) : Session × Option Event :=
  match Sys2Proof.Machine.step h.machine with
  | .next t => (⟨t, true⟩, h.machine.event)
  | .fault _ => (⟨h.machine, true⟩, none)
  | .refused _ => (⟨h.machine, true⟩, none)

/-- Run(), any time after reset, cut after `n` steps (R99). It answers the final session only; the events its completed steps
emit (R100, R182) are Session.runEvents (DESIGN CHOICE: log entry 21, safe). -/
def Session.run (n : Nat) (h : Session) : Session := ⟨h.machine.runFor n, true⟩

/-- The events the host gets from the same run, in the order of its steps (R99, R100, R182). They come as one list beside
the final session, not one by one between the steps (DESIGN CHOICE: log entry 21, safe). -/
def Session.runEvents (n : Nat) (h : Session) : List Event := h.machine.eventsFor n

/-- The STATUS output (R32). -/
def Session.status (h : Session) : Status := h.machine.status

/-- The STATUS output as the configuration's numbers (R6, R32, R151). -/
def Session.statusNumbers (h : Session) : Nat × Nat × Nat × Word := h.machine.status.numbers h.machine.config.codes

/-- The read of a register, without effect; an index outside [0, NREG) names none. -/
def Session.readRegister (h : Session) (i : Nat) : Option Word :=
  if i < h.machine.config.nreg then some (h.machine.x i) else none

/-- The read of a record, without effect; an address outside [0, MEMSIZE) names none. -/
def Session.readMemory (h : Session) (a : Nat) : Option Record :=
  if h.machine.config.validAddr a then some (h.machine.mem.read a) else none

end Sys2Proof.Machine
end

