-- ==== Sys2Proof/Machine/Invariant.lean ====
section
/-! DEFINITION. What holds of every state a machine can be in: a valid configuration, NGPR general registers, memory in
canonical form and inside the address space, a STATUS whose fields agree, and words of XLEN bits everywhere. -/

namespace Sys2Proof.Machine

/-- R32: a reason exactly when halted, a cause exactly when fatal, and info 0 unless fatal. -/
abbrev Status.coherent (st : Status) : Prop :=
  (st.reason ≠ .none ↔ st.state = .halted) ∧ (st.cause ≠ .none ↔ st.state = .fatal) ∧
    (st.state ≠ .fatal → st.info = 0)

/-- No record stands at or above `n` (R35, R41). -/
abbrev Memory.below (m : Memory) (n : Nat) : Prop := ∀ e ∈ m, e.1 < n

/-- Every stored word is an XLEN-bit word (R21, R32, R36). -/
abbrev State.words (s : State) : Prop :=
  (∀ v ∈ s.gprs, isWord s.config.xlen v) ∧ isWord s.config.xlen s.sp ∧ isWord s.config.xlen s.pc ∧
    isWord s.config.xlen s.lr ∧ isWord s.config.xlen s.status.info ∧ ∀ e ∈ s.mem, e.2.fits s.config.xlen

/-- The invariant of states. -/
abbrev State.inv (s : State) : Prop :=
  s.config.valid ∧ s.gprs.length = s.config.ngpr ∧ s.mem.wf = true ∧ Memory.below s.mem s.config.memSize ∧
    s.status.coherent ∧ s.words

end Sys2Proof.Machine
end

