-- ==== Sys2Proof/Safety.lean ====
section
/-! DEFINITION. What a run can be, in the terms claims use (R91, R150, R180). -/

namespace Sys2Proof.Safety

open Sys2Proof.Machine

/-- No number of steps reaches a fatal condition. -/
def NeverFatal (s : State) : Prop := ∀ n, (s.runFor n).status.state ≠ .fatal

/-- The run ends in a normal halt (R150). -/
def HaltsNormally (s : State) : Prop := ∃ t, s.endsIn t ∧ t.status.state = .halted

/-- The run never ends (R180). -/
def RunsForever (s : State) : Prop := ∀ n, (s.runFor n).status.state = .running

end Sys2Proof.Safety
end

