-- ==== Sys2Proof/WellFormed.lean ====
section
/-! DEFINITION. Well-formed instructions. The decoder and exec take any instruction; well-formedness says which ones are
the decoding of some record of words, and which ones raise no REG_INDEX. -/

namespace Sys2Proof

/-- Some record decodes to the instruction: only NO_INSTRUCTION is limited, to opcode values that are not one of the
twelve (R73). -/
def Instr.encodable (o : Opcodes) : Instr → Bool
  | .noInstruction opcode => (o.lookup opcode).isNone
  | _ => true

/-- Every operand is an n-bit word. -/
def Instr.fits (n : Nat) (i : Instr) : Bool := i.operands.all fun v => decide (isWord n v)

/-- Encodable, its operands words, and every register field names a register. -/
def Instr.wf (c : Config) (i : Instr) : Bool :=
  i.encodable c.opc && i.fits c.xlen && i.regFields.all c.isReg

end Sys2Proof
end

