-- ==== Sys2Proof/Certificates/Slice0/Obligations.lean ====
section
/-! DEFINITION. The statements about the machine. Each says which rule of spec/ it formalises; where a rule is the spec's
own decision Dn (92_eei_decisions.md), the docstring names it. Register contents are read through x[j] (R9) for every index
j below NREG, memory through the read of every record, so a frame says what happens to all of the state. -/

namespace Sys2Proof.Claims

open Sys2Proof.Machine

/-! ## The words of the statements -/

/-- The field names a register: 0 ≤ field < NREG (R69). -/
abbrev Named (c : Config) (w : Int) : Prop := 0 ≤ w ∧ w < c.nreg

/-- a + b as an XLEN-bit word: the `+` of the rules (R111). -/
abbrev plus (s : State) (a b : Int) : Int := wrap s.config.xlen (a + b)

/-- a − b as an XLEN-bit word: the `−` of the rules (R111). -/
abbrev minus (s : State) (a b : Int) : Int := wrap s.config.xlen (a - b)

/-- ValidAddr (R41). -/
abbrev Inside (c : Config) (a : Int) : Prop := 0 ≤ a ∧ a < c.memSize

/-- `bad` is the first of the fields that names no register (R96). -/
def FirstUnnamed (c : Config) (fields : List Word) (bad : Word) : Prop :=
  ∃ before after, fields = before ++ bad :: after ∧ (∀ w ∈ before, Named c w) ∧ ¬ Named c bad

/-- The state in which only STATUS has changed, to FATAL with a cause and an info (R11). -/
def Fatal (s : State) (cause : Cause) (info : Word) : State :=
  { s with status := { s.status with state := .fatal, cause := cause, info := info } }

/-- The state in which only STATUS has changed, to HALTED with a reason (R11). -/
def Halted (s : State) (reason : HaltReason) : State :=
  { s with status := { s.status with state := .halted, reason := reason } }

/-- Every slot of every record reads as before. -/
def SameMemory (s t : State) : Prop := ∀ a, t.mem.read a = s.mem.read a

/-- Neither the configuration nor STATUS has changed. -/
def SameControl (s t : State) : Prop := t.config = s.config ∧ t.status = s.status

/-- From `s` to `t` only x[i] has changed, to `v`; a write to the zero register changes nothing (R9). -/
def Wrote (s t : State) (i : Nat) (v : Word) : Prop :=
  SameControl s t ∧ SameMemory s t ∧
    ∀ j, j < s.config.nreg → t.x j = if j = i ∧ j ≠ s.config.idxZr then v else s.x j

/-- From `s` to `t` x[i] has taken `v` and then pc has advanced by 4 from the value it had after that write (R97). -/
def WroteAndAdvanced (s t : State) (i : Nat) (v : Word) : Prop :=
  SameControl s t ∧ SameMemory s t ∧
    ∀ j, j < s.config.nreg →
      t.x j =
        if j = s.config.idxPc then plus s (if i = s.config.idxPc then v else s.x s.config.idxPc) 4
        else if j = i ∧ j ≠ s.config.idxZr then v
        else s.x j

/-- From `s` to `t` only pc has changed, to `target`. -/
def Jumped (s t : State) (target : Word) : Prop :=
  SameControl s t ∧ SameMemory s t ∧
    ∀ j, j < s.config.nreg → t.x j = if j = s.config.idxPc then target else s.x j

/-- From `s` to `t` slot 0 of record `a` has taken `v` and pc has advanced by 4; slots 1 to 3 of that record and every
other record read as before. -/
def StoredAndAdvanced (s t : State) (a : Nat) (v : Word) : Prop :=
  SameControl s t ∧
    (∀ b, t.mem.read b = if b = a then { s.mem.read b with s0 := v } else s.mem.read b) ∧
    ∀ j, j < s.config.nreg → t.x j = if j = s.config.idxPc then plus s (s.x s.config.idxPc) 4 else s.x j

/-- What the rule of an instruction with the record `r` says of a state: the record decodes to it; the first register field
that names no register stops it with nothing else changed; and when they all name registers it completes in a next state
of which `post` holds. -/
def Obeys (s : State) (r : Record) (i : Instr) (fields : List Word) (post : State → Prop) : Prop :=
  decode s.config.opc r = i ∧
    (∀ bad, FirstUnnamed s.config fields bad → exec i s = .next (Fatal s .regIndex bad)) ∧
    ((∀ w ∈ fields, Named s.config w) → ∃ t, exec i s = .next t ∧ post t)

/-- The destination field of the instructions that have one (R27). -/
def destination : Instr → Option Word
  | .add rd _ _ => some rd
  | .addi rd _ _ => some rd
  | .sub rd _ _ => some rd
  | .subi rd _ _ => some rd
  | .ldur rt _ _ => some rt
  | .lsl rd _ _ => some rd
  | .stur .. => none
  | .cbz .. => none
  | .cbnz .. => none
  | .br .. => none
  | .bl .. => none
  | .b .. => none
  | .noInstruction .. => none

/-- The effective address of the instructions that have one (R120). -/
def accessAddress (s : State) : Instr → Option Word
  | .ldur _ rn imm => some (plus s (s.x rn.toNat) imm)
  | .stur _ rn imm => some (plus s (s.x rn.toNat) imm)
  | .add .. => none
  | .addi .. => none
  | .sub .. => none
  | .subi .. => none
  | .lsl .. => none
  | .cbz .. => none
  | .cbnz .. => none
  | .br .. => none
  | .bl .. => none
  | .b .. => none
  | .noInstruction .. => none

/-- The result of an ADDI or SUBI that reads sp and passes the one bound it checks (R118). -/
def overflowing (s : State) : Instr → Option Word
  | .addi _ rn imm =>
    if rn.toNat = s.config.idxSp ∧ (s.config.stackUpperBound : Int) < plus s (s.x rn.toNat) imm
    then some (plus s (s.x rn.toNat) imm) else none
  | .subi _ rn imm =>
    if rn.toNat = s.config.idxSp ∧ minus s (s.x rn.toNat) imm < s.config.stackLower
    then some (minus s (s.x rn.toNat) imm) else none
  | .add .. => none
  | .sub .. => none
  | .ldur .. => none
  | .stur .. => none
  | .lsl .. => none
  | .cbz .. => none
  | .cbnz .. => none
  | .br .. => none
  | .bl .. => none
  | .b .. => none
  | .noInstruction .. => none

/-- The instruction the next step of a running machine fetches. -/
def nextInstr (s : State) : Instr := decode s.config.opc (s.mem.read s.pc.toNat)

/-- The next step of the machine is the fetch of an instruction. -/
abbrev Fetches (s : State) : Prop := s.status.state = .running ∧ Inside s.config s.pc

/-- `ADDI SP, SP, #imm` (up) or `SUBI SP, SP, #imm` (down). -/
def spMove (c : Config) (m : Bool × Word) : Instr :=
  if m.1 then .addi c.idxSp c.idxSp m.2 else .subi c.idxSp c.idxSp m.2

/-- A sequence of moves of sp, run until it ends or the machine stops. -/
def runMoves : State → List (Bool × Word) → State
  | s, [] => s
  | s, m :: ms =>
    if s.status.state = .running then
      match exec (spMove s.config m) s with
      | .next t => runMoves t ms
      | .fault _ => s
      | .refused _ => s
    else s

/-- Inside the stack region, a closed interval (R42). -/
abbrev InStack (c : Config) (a : Int) : Prop := c.stackLower ≤ a ∧ a ≤ c.stackUpperBound

/-- A non-negative immediate whose addition to an address of the stack region does not wrap. -/
abbrev SmallMove (c : Config) (imm : Int) : Prop :=
  0 ≤ imm ∧ c.stackUpperBound + imm < ((2 ^ (c.xlen - 1) : Nat) : Int)

/-- Where a sequence of moves takes sp on the integers. -/
def movedTo (sp : Int) (ms : List (Bool × Word)) : Int :=
  ms.foldl (fun p m => if m.1 then p + m.2 else p - m.2) sp

/-- Instruction `i` completes in a running state with pc at `target`; and the next step then stops with PC_INVALID if that
is no valid address, and halts if it is one that holds no instruction. -/
def Lands (s : State) (i : Instr) (target : Word) : Prop :=
  ∃ t, exec i s = .next t ∧ t.status.state = .running ∧ t.pc = target ∧
    (¬ Inside s.config target → step t = .next (Fatal t .pcInvalid target)) ∧
    (Inside s.config target → s.config.opc.lookup (s.mem.read target.toNat).s0 = none →
      step t = .next (Halted t .noInstruction))

/-- The arity of each mnemonic, as R78 lists it. -/
def arityOf : Mnemonic → Nat
  | .add | .addi | .sub | .subi | .ldur | .stur | .lsl => 3
  | .cbz | .cbnz => 2
  | .b | .br | .bl => 1

/-- The slot holds operand `k` of a line under an arity: the value of token `k` where that is a word, 0 where the token is
absent, and 0 beyond the arity (R78). A value that is no word is a free value (log entry 13). -/
def SlotRead (c : Config) (ops : List (List Char)) (arity k : Nat) (slot : Word) : Prop :=
  (arity ≤ k → slot = 0) ∧ (ops[k]? = none → slot = 0) ∧
    ∀ t, k < arity → ops[k]? = some t → isWord c.xlen (Assembler.resolve c t) → slot = Assembler.resolve c t

/-- The operand slots of a record, read from the operand tokens of a line under an arity. -/
def SlotsRead (c : Config) (ops : List (List Char)) (arity : Nat) (r : Record) : Prop :=
  SlotRead c ops arity 0 r.s1 ∧ SlotRead c ops arity 1 r.s2 ∧ SlotRead c ops arity 2 r.s3

end Sys2Proof.Claims

open Sys2Proof Sys2Proof.Machine Sys2Proof.Claims

/-! ## Encoding -/

/-- R71 (numbers: D4): the opcode map, one number a mnemonic, each with the operand slots of its format. -/
def Obligations.OpcodeMap : Prop :=
  ∀ a b c : Word,
    decode {} ⟨1, a, b, c⟩ = .add a b c ∧ decode {} ⟨2, a, b, c⟩ = .addi a b c ∧
    decode {} ⟨3, a, b, c⟩ = .sub a b c ∧ decode {} ⟨4, a, b, c⟩ = .subi a b c ∧
    decode {} ⟨5, a, b, c⟩ = .ldur a b c ∧ decode {} ⟨6, a, b, c⟩ = .stur a b c ∧
    decode {} ⟨7, a, b, c⟩ = .lsl a b c ∧ decode {} ⟨8, a, b, c⟩ = .cbz a b ∧
    decode {} ⟨9, a, b, c⟩ = .cbnz a b ∧ decode {} ⟨10, a, b, c⟩ = .br a ∧
    decode {} ⟨11, a, b, c⟩ = .bl a ∧ decode {} ⟨12, a, b, c⟩ = .b a ∧
    decode {} ⟨0, a, b, c⟩ = .noInstruction 0

/-- Encoding then decoding gives every instruction back, with every operand at every value, at every valid numbering; of
no instruction, every opcode value that is not one of the twelve. With n-bit words the encoded record is one of n-bit words
and is read back from its packed image too. The encoder's zeros in unused slots: R66 to R68. -/
def Obligations.DecodeOfEncode : Prop :=
  ∀ (o : Opcodes) (i : Instr), o.valid → i.encodable o = true → decode o (encode o i) = i ∧
    ∀ n, 1 ≤ n → (∀ v ∈ o.toList, isWord n v) → i.fits n = true →
      (encode o i).fits n ∧ decode o (Record.ofNat n ((encode o i).packed n)) = i

/-- Decoding then encoding gives the record back but for the slots its opcode does not use, which become 0. -/
def Obligations.EncodeOfDecode : Prop :=
  ∀ (o : Opcodes) (r : Record),
    encode o (decode o r) =
      match o.lookup r.s0 with
      | none => ⟨r.s0, 0, 0, 0⟩
      | some m =>
        ⟨r.s0, r.s1, if 2 ≤ m.format.arity then r.s2 else 0, if 3 ≤ m.format.arity then r.s3 else 0⟩

/-- R73: at the numbers of R71, no instruction is exactly an opcode value at most 0 or above 12, whatever the operand
slots hold. -/
def Obligations.UnrecognizedOpcodes : Prop :=
  ∀ (r : Record) (w : Word),
    decode {} r = .noInstruction w ↔ (r.s0 ≤ 0 ∨ 12 < r.s0) ∧ w = r.s0

/-- R70 (D19): slots the opcode does not use do not matter: records that agree on the opcode and on the used slots are the
same instruction. -/
def Obligations.UnusedSlotsIgnored : Prop :=
  ∀ (o : Opcodes) (r q : Record),
    r.s0 = q.s0 →
    (∀ m, o.lookup r.s0 = some m →
      r.s1 = q.s1 ∧ (2 ≤ m.format.arity → r.s2 = q.s2) ∧ (3 ≤ m.format.arity → r.s3 = q.s3)) →
    decode o r = decode o q

/-- R62 (D20): slot k of a record of n-bit words occupies bits n·k + n − 1 to n·k of its packed image, a number below
2^(4·n); and the numbering of a record's bits that decodeTableWord uses is this one. -/
def Obligations.PackedImage : Prop :=
  ∀ (n : Nat) (r : Record), 1 ≤ n → r.fits n →
    r.packed n % 2 ^ n = unsigned n r.s0 ∧ r.packed n / 2 ^ n % 2 ^ n = unsigned n r.s1 ∧
      r.packed n / 2 ^ (2 * n) % 2 ^ n = unsigned n r.s2 ∧ r.packed n / 2 ^ (3 * n) % 2 ^ n = unsigned n r.s3 ∧
      r.packed n < 2 ^ (4 * n) ∧ Record.ofNat n (r.packed n) = r

/-- Words written out from the encoding (R60, R62 to R68, R71), one of each format and one of no instruction, the first,
second, fifth and last but one as 95_test_vectors.md prints them. -/
def Obligations.WrittenOutWords : Prop :=
  decodeTableWord 128 0x00000005000000200000000100000002 = some (.addi 1 32 5) ∧
    decodeTableWord 128 0x00000064000000200000000200000006 = some (.stur 2 32 100) ∧
    decodeTableWord 128 0x00000004000000030000000500000003 = some (.sub 5 3 4) ∧
    decodeTableWord 128 0x00000063000000280000000100000008 = some (.cbz 1 40) ∧
    decodeTableWord 128 0xFFFFFFFD000000020000000100000002 = some (.addi 1 2 (-3)) ∧
    decodeTableWord 128 0x0000000000000000FFFFFFF80000000B = some (.bl (-8)) ∧
    decodeTableWord 128 0x0000000000000000000000200000000A = some (.br 32) ∧
    decodeTableWord 128 0x00000003000000020000000110000001 = some (.noInstruction 0x10000001)

/-! ## The step -/

/-- R92, R94, R95: a running machine whose pc is a valid address steps by running the instruction that the record at pc
decodes to, and the step adds nothing around it. -/
def Obligations.StepRunsTheDecodedInstruction : Prop :=
  ∀ s : State, s.status.state = .running → Inside s.config s.pc →
    step s = exec (decode s.config.opc (s.mem.read s.pc.toNat)) s

/-- R153 (D8): a step that begins with pc outside [0, MEMSIZE) sets STATUS to FATAL, PC_INVALID, info pc, and changes
nothing else. -/
def Obligations.InvalidPcStops : Prop :=
  ∀ s : State, s.status.state = .running → ¬ Inside s.config s.pc → step s = .next (Fatal s .pcInvalid s.pc)

/-- R98 (D15 for the halted state): in a terminal state a step changes nothing and emits no event, and so does any number
of steps. -/
def Obligations.TerminalStatesAbsorb : Prop :=
  ∀ s : State, s.status.state ≠ .running → step s = .next s ∧ s.event = none ∧ ∀ n, s.runFor n = s

/-- The step always completes: no state and no memory contents make it stop at the host's interface. R90 says that the step
function always completes. That a halt and a fatal condition are next states too, and nothing is a fault of the host's
interface, is the model's choice (DESIGN CHOICE, log entry 6; U5 to U7 of 93_implementation_defined.md offer a fault). -/
def Obligations.StepAlwaysCompletes : Prop := ∀ s : State, ∃ t, step s = .next t

/-- R93 (D8, D9, D10): what ends a step, in the order of the checks; each clause names the first condition that applies,
and STATUS is unchanged when none does. -/
def Obligations.OrderOfChecks : Prop :=
  ∀ s : State, s.inv → s.status.state = .running → ∃ t, step s = .next t ∧
    (¬ Inside s.config s.pc → t.status = { state := .fatal, cause := .pcInvalid, info := s.pc }) ∧
    (Inside s.config s.pc →
      ((∃ w, nextInstr s = .noInstruction w) → t.status = { state := .halted, reason := .noInstruction }) ∧
      ((¬ ∃ w, nextInstr s = .noInstruction w) →
        (∀ bad, FirstUnnamed s.config (nextInstr s).regFields bad →
          t.status = { state := .fatal, cause := .regIndex, info := bad }) ∧
        ((∀ w ∈ (nextInstr s).regFields, Named s.config w) →
          (∀ ea, accessAddress s (nextInstr s) = some ea → ¬ Inside s.config ea →
            t.status = { state := .fatal, cause := .memBounds, info := ea }) ∧
          (∀ rn, nextInstr s = .br rn → rn.toNat = s.config.idxZr →
            t.status = { state := .halted, reason := .brZr }) ∧
          (∀ res, overflowing s (nextInstr s) = some res →
            t.status = { state := .fatal, cause := .stackOverflow, info := res }) ∧
          ((∀ ea, accessAddress s (nextInstr s) = some ea → Inside s.config ea) →
            (∀ rn, nextInstr s = .br rn → rn.toNat ≠ s.config.idxZr) →
            overflowing s (nextInstr s) = none → t.status = s.status))))

/-- R155, R96 (D10): any instruction whose first field that names no register is `bad` stops with REG_INDEX and nothing
else changed; and a running machine's instruction ends with that cause only in that case. -/
def Obligations.RegIndexExactly : Prop :=
  ∀ (s : State) (i : Instr), s.inv → s.status.state = .running →
    (∀ bad, FirstUnnamed s.config i.regFields bad → exec i s = .next (Fatal s .regIndex bad)) ∧
    ∃ t, exec i s = .next t ∧ (t.status.cause = .regIndex ↔ ∃ w ∈ i.regFields, ¬ Named s.config w)

/-- R100 (fields: D18): a step that completes in RUNNING emits the event with pc at its start, the fetched slots, each
register field with the register's value after the step, and for LDUR and STUR the effective address and whether op2 is
IDX_SP; every other step emits none. -/
def Obligations.EventOfAStep : Prop :=
  ∀ s : State, s.inv →
    (¬ Fetches s → s.event = none) ∧
    (Fetches s → ∃ t, step s = .next t ∧
      (t.status.state ≠ .running → s.event = none) ∧
      (t.status.state = .running → ∃ e, s.event = some e ∧ e.addr = s.pc ∧
        Record.mk e.opcode e.op1 e.op2 e.op3 = s.mem.read s.pc.toNat ∧
        e.regs = (nextInstr s).regFields.map (fun w => (w, t.x w.toNat)) ∧
        e.access = (match nextInstr s with
          | .ldur _ rn imm => some (plus s (s.x rn.toNat) imm, decide (rn.toNat = s.config.idxSp))
          | .stur _ rn imm => some (plus s (s.x rn.toNat) imm, decide (rn.toNat = s.config.idxSp))
          | _ => none)))

/-! ## Instructions -/

/-- R113: ADD, at every operand: the wrapped sum; no stack-bound check. -/
def Obligations.AddRule : Prop :=
  ∀ (s : State) (rd rn rm : Word), s.inv →
    Obeys s ⟨s.config.opc.add, rd, rn, rm⟩ (.add rd rn rm) [rd, rn, rm] fun t =>
      WroteAndAdvanced s t rd.toNat (plus s (s.x rn.toNat) (s.x rm.toNat))

/-- R114: ADDI: the wrapped sum; if the source field is IDX_SP and the result is above STACKUPPERBOUND, STACK_OVERFLOW
after the write, with pc not advanced. -/
def Obligations.AddiRule : Prop :=
  ∀ (s : State) (rd rn imm : Word), s.inv →
    Obeys s ⟨s.config.opc.addi, rd, rn, imm⟩ (.addi rd rn imm) [rd, rn] fun t =>
      if rn.toNat = s.config.idxSp ∧ (s.config.stackUpperBound : Int) < plus s (s.x rn.toNat) imm then
        ∃ u, Wrote s u rd.toNat (plus s (s.x rn.toNat) imm) ∧ t = Fatal u .stackOverflow (plus s (s.x rn.toNat) imm)
      else WroteAndAdvanced s t rd.toNat (plus s (s.x rn.toNat) imm)

/-- R115: SUB: the wrapped difference; no stack-bound check. -/
def Obligations.SubRule : Prop :=
  ∀ (s : State) (rd rn rm : Word), s.inv →
    Obeys s ⟨s.config.opc.sub, rd, rn, rm⟩ (.sub rd rn rm) [rd, rn, rm] fun t =>
      WroteAndAdvanced s t rd.toNat (minus s (s.x rn.toNat) (s.x rm.toNat))

/-- R116: SUBI: the wrapped difference; if the source field is IDX_SP and the result is below STACK_LOWER, STACK_OVERFLOW
after the write, with pc not advanced. -/
def Obligations.SubiRule : Prop :=
  ∀ (s : State) (rd rn imm : Word), s.inv →
    Obeys s ⟨s.config.opc.subi, rd, rn, imm⟩ (.subi rd rn imm) [rd, rn] fun t =>
      if rn.toNat = s.config.idxSp ∧
          minus s (s.x rn.toNat) imm < (s.config.stackUpperBound : Int) - s.config.stackSize then
        ∃ u, Wrote s u rd.toNat (minus s (s.x rn.toNat) imm) ∧ t = Fatal u .stackOverflow (minus s (s.x rn.toNat) imm)
      else WroteAndAdvanced s t rd.toNat (minus s (s.x rn.toNat) imm)

/-- R117: LSL: the shift by the unsigned amount, 0 from XLEN on (D12). -/
def Obligations.LslRule : Prop :=
  ∀ (s : State) (rd rn imm : Word), s.inv →
    Obeys s ⟨s.config.opc.lsl, rd, rn, imm⟩ (.lsl rd rn imm) [rd, rn] fun t =>
      WroteAndAdvanced s t rd.toNat (if unsigned s.config.xlen imm < s.config.xlen then
          wrap s.config.xlen (s.x rn.toNat * ((2 ^ unsigned s.config.xlen imm : Nat) : Int)) else 0)

/-- R121: LDUR: slot 0 of the record at x[op2] + op3; MEM_BOUNDS with nothing changed if that is no valid address (D9). -/
def Obligations.LdurRule : Prop :=
  ∀ (s : State) (rt rn imm : Word), s.inv →
    Obeys s ⟨s.config.opc.ldur, rt, rn, imm⟩ (.ldur rt rn imm) [rt, rn] fun t =>
      (Inside s.config (plus s (s.x rn.toNat) imm) →
        WroteAndAdvanced s t rt.toNat (s.mem.read (plus s (s.x rn.toNat) imm).toNat).s0) ∧
      (¬ Inside s.config (plus s (s.x rn.toNat) imm) → t = Fatal s .memBounds (plus s (s.x rn.toNat) imm))

/-- R122 (slot 0 only: D6): STUR: slot 0 of the record at x[op2] + op3 takes x[op1]; every other slot of memory and every
register but pc stay; MEM_BOUNDS with nothing changed if that is no valid address. -/
def Obligations.SturRule : Prop :=
  ∀ (s : State) (rt rn imm : Word), s.inv →
    Obeys s ⟨s.config.opc.stur, rt, rn, imm⟩ (.stur rt rn imm) [rt, rn] fun t =>
      (Inside s.config (plus s (s.x rn.toNat) imm) →
        StoredAndAdvanced s t (plus s (s.x rn.toNat) imm).toNat (s.x rt.toNat)) ∧
      (¬ Inside s.config (plus s (s.x rn.toNat) imm) → t = Fatal s .memBounds (plus s (s.x rn.toNat) imm))

/-- R131: CBZ: the absolute target if x[op1] is 0, else the next instruction; op3 is ignored. -/
def Obligations.CbzRule : Prop :=
  ∀ (s : State) (rt target unused : Word), s.inv →
    Obeys s ⟨s.config.opc.cbz, rt, target, unused⟩ (.cbz rt target) [rt] fun t =>
      Jumped s t (if s.x rt.toNat = 0 then target else plus s (s.x s.config.idxPc) 4)

/-- R132: CBNZ: the absolute target if x[op1] is not 0, else the next instruction; op3 is ignored. -/
def Obligations.CbnzRule : Prop :=
  ∀ (s : State) (rt target unused : Word), s.inv →
    Obeys s ⟨s.config.opc.cbnz, rt, target, unused⟩ (.cbnz rt target) [rt] fun t =>
      Jumped s t (if s.x rt.toNat ≠ 0 then target else plus s (s.x s.config.idxPc) 4)

/-- R133 (pc after the halt: D22): BR: a normal halt with only STATUS changed if the field is IDX_ZR, whatever any
register holds; else pc takes the register's value. -/
def Obligations.BrRule : Prop :=
  ∀ (s : State) (rn unused unused' : Word), s.inv →
    Obeys s ⟨s.config.opc.br, rn, unused, unused'⟩ (.br rn) [rn] fun t =>
      (rn.toNat = s.config.idxZr → t = Halted s .brZr) ∧
      (rn.toNat ≠ s.config.idxZr → Jumped s t (s.x rn.toNat))

/-- R134: BL: lr takes the BL's own address + 4 and pc the absolute target; nothing else changes. -/
def Obligations.BlRule : Prop :=
  ∀ (s : State) (target unused unused' : Word), s.inv →
    Obeys s ⟨s.config.opc.bl, target, unused, unused'⟩ (.bl target) [] fun t =>
      SameControl s t ∧ SameMemory s t ∧
        ∀ j, j < s.config.nreg →
          t.x j =
            if j = s.config.idxPc then target
            else if j = s.config.idxLr then plus s (s.x s.config.idxPc) 4
            else s.x j

/-- R135: B: pc takes the absolute target; nothing else changes. -/
def Obligations.BRule : Prop :=
  ∀ (s : State) (target unused unused' : Word), s.inv →
    Obeys s ⟨s.config.opc.b, target, unused, unused'⟩ (.b target) [] fun t => Jumped s t target

/-- R140: a record whose opcode is none of the twelve is no instruction, whatever its other slots hold, and running it
halts normally with only STATUS changed. -/
def Obligations.NoInstructionRule : Prop :=
  ∀ (s : State) (r : Record), r.s0 ∉ s.config.opc.toList →
    decode s.config.opc r = .noInstruction r.s0 ∧
      exec (.noInstruction r.s0) s = .next (Halted s .noInstruction)

/-! ## Registers -/

/-- R23: the zero register reads 0 in every state, and a write to it changes nothing. -/
def Obligations.ZeroRegister : Prop :=
  ∀ (s : State) (v : Word), s.x s.config.idxZr = 0 ∧ s.setX s.config.idxZr v = s

/-- From R23: an arithmetic, shift or load instruction whose destination is the zero register, and that no check stops,
changes pc and nothing else. -/
def Obligations.ZeroDestinationMovesOnlyPc : Prop :=
  ∀ (s : State) (i : Instr) (rd : Word), s.inv → s.status.state = .running →
    destination i = some rd → rd.toNat = s.config.idxZr →
    (∀ w ∈ i.regFields, Named s.config w) →
    (∀ ea, accessAddress s i = some ea → Inside s.config ea) → overflowing s i = none →
    exec i s = .next { s with pc := plus s s.pc 4 }

/-- From R97 (b) (D11): an instruction whose destination is IDX_PC is a jump to 4 past the value it writes, and changes
nothing else. -/
def Obligations.ProgramCounterDestination : Prop :=
  ∀ (s : State) (rn rm imm : Word), s.inv → Named s.config rn → Named s.config rm →
    (∃ t, exec (.add (s.config.idxPc : Int) rn rm) s = .next t ∧
      Jumped s t (plus s (plus s (s.x rn.toNat) (s.x rm.toNat)) 4)) ∧
    (∃ t, exec (.sub (s.config.idxPc : Int) rn rm) s = .next t ∧
      Jumped s t (plus s (minus s (s.x rn.toNat) (s.x rm.toNat)) 4)) ∧
    (Inside s.config (plus s (s.x rn.toNat) imm) →
      ∃ t, exec (.ldur (s.config.idxPc : Int) rn imm) s = .next t ∧
        Jumped s t (plus s (s.mem.read (plus s (s.x rn.toNat) imm).toNat).s0 4))

/-- R27, R25: a step changes a register other than pc only if it is the destination of the instruction fetched, or lr
under BL. -/
def Obligations.OnlyDestinationsChange : Prop :=
  ∀ (s t : State) (j : Nat), s.inv → step s = .next t → j < s.config.nreg → j ≠ s.config.idxPc → t.x j ≠ s.x j →
    Fetches s ∧
      ((∃ w, destination (nextInstr s) = some w ∧ w.toNat = j) ∨
        (∃ target, nextInstr s = .bl target) ∧ j = s.config.idxLr)

/-- R30: while pc is a valid address, pc + WIDTH does not wrap. -/
def Obligations.PcPlusWidthNeverWraps : Prop :=
  ∀ s : State, s.inv → Inside s.config s.pc → s.nextPc = s.pc + 4

/-- R111 (D1): sums and differences of n-bit words are n-bit words that differ from the mathematical ones by a multiple of
2^n, and the bits of a sum are those of the unsigned sum. -/
def Obligations.ArithmeticWraps : Prop :=
  ∀ (n : Nat) (a b : Word), 1 ≤ n →
    (isWord n (Alu.add n a b) ∧ ((2 ^ n : Nat) : Int) ∣ Alu.add n a b - (a + b)) ∧
      (isWord n (Alu.sub n a b) ∧ ((2 ^ n : Nat) : Int) ∣ Alu.sub n a b - (a - b)) ∧
      unsigned n (Alu.add n a b) = (unsigned n a + unsigned n b) % 2 ^ n

/-- R112 (D12): the shift moves every bit up by the unsigned amount, zeros come in below and bits are lost above; an amount
of XLEN or more gives 0. -/
def Obligations.ShiftMovesBits : Prop :=
  ∀ (n : Nat) (v s : Word), 1 ≤ n →
    (∀ k, k < n → (unsigned n (Alu.shiftLeft n v s)).testBit k =
      (decide (unsigned n s ≤ k) && (unsigned n v).testBit (k - unsigned n s))) ∧
      (n ≤ unsigned n s → Alu.shiftLeft n v s = 0)

/-! ## Memory -/

/-- R36 (with D6): no step changes slots 1 to 3 of any record. -/
def Obligations.StepsKeepSlotsOneToThree : Prop :=
  ∀ (s t : State) (a : Nat), s.inv → step s = .next t →
    (t.mem.read a).s1 = (s.mem.read a).s1 ∧ (t.mem.read a).s2 = (s.mem.read a).s2 ∧
      (t.mem.read a).s3 = (s.mem.read a).s3

/-- From R45 and R122: a step changes a record only if it fetched a STUR whose effective address is that record's, and then
slot 0 holds the stored register. -/
def Obligations.OnlyStoresChangeMemory : Prop :=
  ∀ (s t : State) (a : Nat), s.inv → step s = .next t → t.mem.read a ≠ s.mem.read a →
    Fetches s ∧ ∃ rt rn imm, nextInstr s = .stur rt rn imm ∧ plus s (s.x rn.toNat) imm = a ∧
      (t.mem.read a).s0 = s.x rt.toNat

/-- R50 (a): a load from the address of the store just before it gives the value stored. -/
def Obligations.LoadAfterStore : Prop :=
  ∀ (s : State) (rt rn rd imm : Word), s.inv → Named s.config rt → Named s.config rn → Named s.config rd →
    rn.toNat ≠ s.config.idxPc → rd.toNat ≠ s.config.idxPc → rd.toNat ≠ s.config.idxZr →
    Inside s.config (plus s (s.x rn.toNat) imm) →
    ∃ t u, exec (.stur rt rn imm) s = .next t ∧ exec (.ldur rd rn imm) t = .next u ∧ u.x rd.toNat = s.x rt.toNat

/-- R54 (D24): a store to slot 0 changes what the next fetch of that record decodes, at once: the stored value as the
opcode with the record's old operands. -/
def Obligations.FetchAfterStore : Prop :=
  ∀ (s : State) (rt rn imm : Word), s.inv → s.status.state = .running → Named s.config rt → Named s.config rn →
    plus s (s.x rn.toNat) imm = plus s s.pc 4 → Inside s.config (plus s s.pc 4) →
    ∃ t, exec (.stur rt rn imm) s = .next t ∧
      step t = exec (decode s.config.opc { s.mem.read (plus s s.pc 4).toNat with s0 := s.x rt.toNat }) t

/-! ## Control transfer and the stack -/

/-- R137 (D8): a control transfer completes whatever its target; the next step finds an invalid target or an empty one. -/
def Obligations.TargetsAreCheckedAtTheNextFetch : Prop :=
  ∀ (s : State) (r target : Word), s.inv → s.status.state = .running → Named s.config r →
    Lands s (.b target) target ∧ Lands s (.bl target) target ∧
      (s.x r.toNat = 0 → Lands s (.cbz r target) target) ∧
      (s.x r.toNat ≠ 0 → Lands s (.cbnz r target) target) ∧
      (r.toNat ≠ s.config.idxZr → Lands s (.br r) (s.x r.toNat))

/-- R135, R99: a B to its own address runs forever, with no state ever changing. -/
def Obligations.BranchToSelfRunsForever : Prop :=
  ∀ s : State, Fetches s → nextInstr s = .b s.pc → Safety.RunsForever s ∧ ∀ n, s.runFor n = s

/-- R134, R136: BL then, at its target, BR LR: control comes back to the record after the BL. -/
def Obligations.CallAndReturn : Prop :=
  ∀ (s : State) (target : Word), s.inv → ∃ t u,
    exec (.bl target) s = .next t ∧ t.pc = target ∧
      exec (.br (s.config.idxLr : Int)) t = .next u ∧ u.pc = plus s s.pc 4

/-- From R118 (the property of section 8 of the source as the spec restates it): for sequences of ADDI SP, SP and
SUBI SP, SP with non-negative immediates that no addition wraps, from sp inside the stack region, the machine stops with a
fatal condition exactly if some move takes sp outside the region. -/
def Obligations.StackDiscipline : Prop :=
  ∀ (s : State) (ms : List (Bool × Word)), s.inv → s.status.state = .running → InStack s.config s.sp →
    (∀ m ∈ ms, SmallMove s.config m.2) →
    ((runMoves s ms).status.state = .fatal ↔ ∃ k ≤ ms.length, ¬ InStack s.config (movedTo s.sp (ms.take k)))

/-! ## Invariants -/

/-- Reset satisfies the invariant in every valid configuration, the reference one among them (the invariant is the model's:
Machine/Invariant.lean). -/
def Obligations.ResetSatisfiesTheInvariant : Prop :=
  (∀ c : Config, c.valid → (State.resetWith c).inv) ∧ State.reset.inv

/-- Every step keeps the invariant: valid configuration, NGPR general registers, memory in canonical form inside the
address space, STATUS fields that agree, and XLEN-bit words in every register, in every slot and in info (R32, R35, R36,
R41). -/
def Obligations.StepsKeepTheInvariant : Prop :=
  ∀ s t : State, s.inv → step s = .next t → t.inv

/-- Every sequence of loads of records of words after reset, refused ones passed over, and every number of steps after it
keep the invariant. -/
def Obligations.RunsKeepTheInvariant : Prop :=
  ∀ (c : Config) (image : List (Int × Record)) (n : Nat), c.valid → (∀ line ∈ image, line.2.fits c.xlen) →
    ((State.boot c image).runFor n).inv

/-- R20: the configuration never changes. -/
def Obligations.ConfigurationNeverChanges : Prop :=
  ∀ s t : State, step s = .next t → t.config = s.config

/-! ## Reset, loads and the host -/

/-- R170 (zeros of the registers: D14): reset, from any state, puts pc, sp, every other register, every slot of memory and
STATUS at its reset value, and depends on the configuration alone. -/
def Obligations.ResetRule : Prop :=
  ∀ s : State, s.config.valid →
    s.resetAgain.pc = s.config.startAddress ∧ s.resetAgain.sp = s.config.stackUpperBound ∧
    (∀ j, j < s.config.nreg → j ≠ s.config.idxPc → j ≠ s.config.idxSp → s.resetAgain.x j = 0) ∧
    (∀ a, s.resetAgain.mem.read a = ⟨0, 0, 0, 0⟩) ∧
    s.resetAgain.status = ⟨.running, .none, .none, 0⟩ ∧
    ∀ t : State, t.config = s.config → t.resetAgain = s.resetAgain

/-- R174 (refusal: D21): a load at a valid address replaces all four slots of that record and touches nothing else; at any
other address it is refused. -/
def Obligations.LoadRule : Prop :=
  ∀ (s : State) (a : Int) (r : Record), s.inv →
    (Inside s.config a → ∃ t, s.load a r = some t ∧
      (∀ b : Nat, t.mem.read b = if (b : Int) = a then r else s.mem.read b) ∧ t = { s with mem := t.mem }) ∧
    (¬ Inside s.config a → s.load a r = none)

/-- R175, R82: after the loads of an image, an address holds the record of the last load of it, or zeros if there is
none. -/
def Obligations.LastLoadWins : Prop :=
  ∀ (c : Config) (image : List (Int × Record)) (a : Nat), c.valid → a < c.memSize →
    (State.boot c image).mem.read a =
      match image.reverse.find? (fun line => line.1 == (a : Int)) with
      | some line => line.2
      | none => ⟨0, 0, 0, 0⟩

/-- R175: loads of different addresses may be made in either order: the states after them are equal. -/
def Obligations.LoadsCommute : Prop :=
  ∀ (s : State) (a b : Int) (r q : Record), s.inv → a ≠ b →
    (s.loadOrSkip (a, r)).loadOrSkip (b, q) = (s.loadOrSkip (b, q)).loadOrSkip (a, r)

/-- R182, R175 (the kept flag and the name of the refusal are the model's, log entry 9): once a step has been requested no
load is taken until the next reset. -/
def Obligations.LoadsOnlyBeforeTheRun : Prop :=
  ∀ (h : Session) (n : Nat) (a : Int) (r : Record),
    h.step.1.load a r = .error .runBegun ∧ (h.run n).load a r = .error .runBegun ∧
      h.reset.load a r ≠ .error .runBegun

/-- R172, R176: with nothing loaded, the first step after reset halts with HALT_NO_INSTRUCTION, with only STATUS
changed. -/
def Obligations.EmptyMemoryHaltsAtOnce : Prop :=
  ∀ c : Config, c.valid → step (State.resetWith c) = .next (Halted (State.resetWith c) .noInstruction)

/-! ## Assembler -/

/-- From 30_encoding.md section 5 (marked there as derived): the name of every register index resolves to that index. -/
def Obligations.ResolveOfFormat : Prop :=
  ∀ (c : Config) (i : Nat), c.valid → i < c.nreg → Assembler.resolve c (Assembler.formatOperand c i) = i

/-- From the canonical spellings of 30_encoding.md section 5: the canonical line of every well-formed instruction at every
address assembles to that address and that instruction's record. -/
def Obligations.CanonicalLineAssembles : Prop :=
  ∀ (c : Config) (a : Nat) (i : Instr), c.valid → i.wf c = true →
    Assembler.parseLine c (Assembler.canonicalLine c a i) = some ((a : Int), encode c.opc i)

/-- From R77, R78 and R81 (raw opcodes and extra tokens: D21): how many operand tokens a line's opcode token takes. A
mnemonic takes its own arity; a raw integer that equals one of the twelve numbers takes that number's arity; any other
integer, one that is no XLEN-bit word among them, and a malformed token, which is opcode 0, take three. Three of its clauses
rest on the model's own reading: that digits followed by other characters, such as 12abc, are malformed as an opcode token
(DEDUCED, log entry 12); that a mnemonic is matched in any mixture of cases, and which characters separate tokens (DEDUCED
and DESIGN CHOICE, log entry 15); and that a line with a number that is no XLEN-bit word assembles at all, with a free value
in that slot (DESIGN CHOICE, log entry 13). -/
def Obligations.ArityRule : Prop :=
  ∀ (c : Config) (line t : List Char) (address : List Char) (ops : List (List Char)), c.valid →
    Assembler.tokens line = address :: t :: ops → ∃ a r, Assembler.parseLine c line = some (a, r) ∧
      (∀ m, Assembler.mnemonicNamed t = some m → r.s0 = c.opc.number m ∧ SlotsRead c ops (arityOf m) r) ∧
      (Assembler.mnemonicNamed t = none →
        (∀ m, Assembler.wholeInt t = some (c.opc.number m) →
          r.s0 = c.opc.number m ∧ SlotsRead c ops (arityOf m) r) ∧
        (∀ n, Assembler.wholeInt t = some n → n ∉ c.opc.toList →
          (isWord c.xlen n → r.s0 = n) ∧ SlotsRead c ops 3 r) ∧
        (Assembler.wholeInt t = none → r.s0 = 0 ∧ SlotsRead c ops 3 r))

/-- Every line assembles to a record of XLEN-bit words, whatever numbers stand in it (that a number outside the range gives
some word, not known, is the model's: log entry 13). -/
def Obligations.AssembledRecordsAreWords : Prop :=
  ∀ (c : Config) (line : List Char) (a : Int) (r : Record), c.valid →
    Assembler.parseLine c line = some (a, r) → r.fits c.xlen

/-! ## Words and codes -/

/-- R8 on wrap and unsigned, for every XLEN: wrap(v) is the only n-bit word congruent to v modulo 2^n; unsigned(v) lies in
[0, 2^n − 1] and its wrap is v (two's complement: D1). -/
def Obligations.WordsOfEveryWidth : Prop :=
  ∀ (n : Nat) (v : Int), 1 ≤ n →
    (∀ u, u = wrap n v ↔ isWord n u ∧ ((2 ^ n : Nat) : Int) ∣ u - v) ∧
      unsigned n v < 2 ^ n ∧ (isWord n v → wrap n (unsigned n v) = v)

/-- From R6 (the numbers: D16; that they are distinct: log entry 16): the numbers of STATUS tell every two values of STATUS
apart. -/
def Obligations.StatusNumbersTellTheOutcome : Prop :=
  ∀ (k : Codes) (st st' : Status), k.valid → st.numbers k = st'.numbers k → st = st'

/-! ## Runs and their events -/

/-- From R99, R100 and R182 (the step count: log entry 19; the list of events: log entry 21): a run of n + 1 steps is a
Step() and a run of n steps from there, and its events are the step's, if it emits one, and then that run's; a run of no
steps changes nothing in the machine and emits nothing. -/
def Obligations.RunIsRepeatedSteps : Prop :=
  ∀ (h : Session) (n : Nat),
    (h.run 0).machine = h.machine ∧ h.runEvents 0 = [] ∧
      h.run (n + 1) = h.step.1.run n ∧ h.runEvents (n + 1) = h.step.2.toList ++ h.step.1.runEvents n
end

