-- ==== Sys2Proof/Laws/Alu.lean ====
section
/-! SUPPORT. wrap and unsigned (R8): the range of their values, what they are congruent to, and that a word is its own wrap. -/

namespace Sys2Proof.Machine

theorem two_pow_pred {n : Nat} (h : 1 ≤ n) : 2 ^ n = 2 * 2 ^ (n - 1) := by
  rw [← pow_succ', Nat.sub_add_cancel h]

/-- A wrapped number is a word. -/
theorem wrap_isWord {n : Nat} (h : 1 ≤ n) (v : Int) : isWord n (wrap n v) := by
  have hp : 0 < 2 ^ n := Nat.two_pow_pos n
  have h2 := two_pow_pred h
  have h0 := Int.le_bmod (x := v) hp
  have h1 := Int.bmod_lt (x := v) hp
  rw [wrap, isWord]
  omega

/-- A wrapped number differs from the number by a multiple of 2^n. -/
theorem dvd_wrap_sub (n : Nat) (v : Int) : ((2 ^ n : Nat) : Int) ∣ wrap n v - v := by
  rw [wrap]
  exact Int.dvd_bmod_sub_self

/-- Words that differ by a multiple of 2^n are equal. -/
theorem isWord_unique {n : Nat} (h : 1 ≤ n) {a b : Int} (ha : isWord n a) (hb : isWord n b)
    (hd : ((2 ^ n : Nat) : Int) ∣ a - b) : a = b := by
  have h2 := two_pow_pred h
  obtain ⟨k, hk⟩ := hd
  rw [isWord] at ha hb
  have hk0 : k = 0 := by
    by_contra hne
    rcases lt_or_gt_of_ne hne with hlt | hgt
    · have : ((2 ^ n : Nat) : Int) * k ≤ ((2 ^ n : Nat) : Int) * (-1) := by
        apply mul_le_mul_of_nonneg_left _ (by positivity); omega
      omega
    · have : ((2 ^ n : Nat) : Int) * 1 ≤ ((2 ^ n : Nat) : Int) * k := by
        apply mul_le_mul_of_nonneg_left _ (by positivity); omega
      omega
  rw [hk0, mul_zero] at hk
  omega

/-- A word is its own wrap. -/
theorem wrap_eq {n : Nat} (h : 1 ≤ n) {v : Int} (hv : isWord n v) : wrap n v = v :=
  isWord_unique h (wrap_isWord h v) hv (dvd_wrap_sub n v)

/-- The unsigned reading is below 2^n. -/
theorem unsigned_lt (n : Nat) (v : Word) : unsigned n v < 2 ^ n := by
  have hp : (0 : Int) < ((2 ^ n : Nat) : Int) := by positivity
  have h0 := Int.emod_nonneg v hp.ne'
  have h1 := Int.emod_lt_of_pos v hp
  rw [unsigned]
  omega

/-- The unsigned reading as an integer. -/
theorem unsigned_cast (n : Nat) (v : Word) : (unsigned n v : Int) = v % ((2 ^ n : Nat) : Int) := by
  have hp : (0 : Int) < ((2 ^ n : Nat) : Int) := by positivity
  have h0 := Int.emod_nonneg v hp.ne'
  rw [unsigned]
  omega

/-- The wrap of the unsigned reading of a word is the word. -/
theorem wrap_unsigned {n : Nat} (h : 1 ≤ n) {v : Word} (hv : isWord n v) : wrap n (unsigned n v) = v := by
  refine isWord_unique h (wrap_isWord h _) hv ?_
  have h1 := dvd_wrap_sub n (unsigned n v)
  have h2 : ((2 ^ n : Nat) : Int) ∣ (unsigned n v : Int) - v := by
    rw [unsigned_cast]
    exact Int.dvd_emod_sub_self
  have := dvd_add h1 h2
  rwa [sub_add_sub_cancel] at this

/-- Numbers congruent modulo 2^n have one wrap. -/
theorem wrap_congr {n : Nat} {a b : Int} (h : ((2 ^ n : Nat) : Int) ∣ a - b) : wrap n a = wrap n b := by
  have : a % ((2 ^ n : Nat) : Int) = b % ((2 ^ n : Nat) : Int) :=
    Int.emod_eq_emod_iff_emod_sub_eq_zero.mpr (Int.emod_eq_zero_of_dvd h)
  rw [wrap, wrap, Int.bmod_def, Int.bmod_def, this]

/-- 0 is a word. -/
theorem isWord_zero (n : Nat) : isWord n 0 := by
  have : 0 < 2 ^ (n - 1) := Nat.two_pow_pos _
  rw [isWord]
  omega

theorem Alu.shiftLeft_isWord {n : Nat} (h : 1 ≤ n) (v amount : Word) : isWord n (Alu.shiftLeft n v amount) := by
  unfold Alu.shiftLeft
  split
  · exact wrap_isWord h _
  · exact isWord_zero n

end Sys2Proof.Machine
end

