-- ==== Sys2Proof/Laws/Decode.lean ====
section
/-! SUPPORT. The opcode map is one to one, so each number selects its own mnemonic, and what each selection decodes to. -/

namespace Sys2Proof

theorem Mnemonic.mem_all (m : Mnemonic) : m ∈ Mnemonic.all := by cases m <;> decide

theorem Opcodes.map_number (o : Opcodes) : Mnemonic.all.map o.number = o.toList := rfl

/-- Distinct mnemonics have distinct numbers (R6). -/
theorem Opcodes.number_injective {o : Opcodes} (h : o.valid) {m n : Mnemonic} (e : o.number m = o.number n) : m = n :=
  have hd : (Mnemonic.all.map o.number).Nodup := h.1
  List.inj_on_of_nodup_map hd m.mem_all n.mem_all e

/-- A mnemonic's number selects it (R72). -/
theorem Opcodes.lookup_number {o : Opcodes} (h : o.valid) (m : Mnemonic) : o.lookup (o.number m) = some m := by
  unfold Opcodes.lookup
  cases hf : Mnemonic.all.find? (fun n => o.number n == o.number m) with
  | none => exact absurd (List.find?_eq_none.mp hf m m.mem_all) (by simp)
  | some n =>
    have e : o.number n = o.number m := by simpa using List.find?_some hf
    rw [Opcodes.number_injective h e]

/-- A selected mnemonic has the number that selected it. -/
theorem Opcodes.number_of_lookup {o : Opcodes} {w : Word} {m : Mnemonic} (h : o.lookup w = some m) : o.number m = w := by
  simpa using List.find?_some h

/-- Nothing is selected exactly when the value is not one of the twelve numbers (R73). -/
theorem Opcodes.lookup_eq_none {o : Opcodes} {w : Word} : o.lookup w = none ↔ w ∉ o.toList := by
  unfold Opcodes.lookup
  rw [List.find?_eq_none, ← Opcodes.map_number o, List.mem_map]
  simp only [beq_iff_eq]
  constructor
  · rintro h ⟨m, hm, e⟩; exact h m hm e
  · intro h m hm e; exact h ⟨m, hm, e⟩

/-- The zero opcode selects nothing (R73). -/
theorem Opcodes.lookup_zero {o : Opcodes} (h : o.valid) : o.lookup 0 = none := Opcodes.lookup_eq_none.mpr h.2

/-- An instruction other than no instruction is encoded under its own opcode number. -/
theorem encode_s0 (o : Opcodes) {i : Instr} {m : Mnemonic} (h : i.mnemonic = some m) :
    (encode o i).s0 = o.number m := by
  cases i <;> simp [Instr.mnemonic] at h <;> subst h <;> rfl

/-- No instruction is decoded exactly from the opcode values that are not one of the twelve (R72, R73). -/
theorem decode_eq_noInstruction {o : Opcodes} {r : Record} {w : Word} :
    decode o r = .noInstruction w ↔ o.lookup r.s0 = none ∧ w = r.s0 := by
  unfold decode
  cases h : o.lookup r.s0 with
  | none => simp [eq_comm]
  | some m => cases m <;> simp

/-- A record of words decodes to an instruction with words as operands. -/
theorem decode_fits {o : Opcodes} {r : Record} {n : Nat} (h : r.fits n) : (decode o r).fits n = true := by
  obtain ⟨h0, h1, h2, h3⟩ := h
  simp only [Instr.fits, List.all_eq_true, decide_eq_true_eq]
  unfold decode
  cases o.lookup r.s0 with
  | none => simpa only [Instr.operands, List.forall_mem_singleton] using h0
  | some m =>
    cases m <;> simp only [Instr.operands, List.forall_mem_cons, List.not_mem_nil,
      false_imp_iff, implies_true, and_true] <;>
      first | exact ⟨h1, h2, h3⟩ | exact ⟨h1, h2⟩ | exact h1

/-- The decoded instruction has the mnemonic its opcode slot selects (R95). -/
theorem mnemonic_decode (o : Opcodes) (r : Record) : (decode o r).mnemonic = o.lookup r.s0 := by
  unfold decode
  cases h : o.lookup r.s0 with
  | none => rfl
  | some m => cases m <;> rfl

end Sys2Proof
end

