-- ==== Sys2Proof/Laws/Memory.lean ====
section
/-! SUPPORT. Memory: reading after writing, the canonical form, and that it makes equal memories equal data. -/

namespace Sys2Proof.Machine

/-- Every listed address is above `b`. -/
abbrev Memory.above (m : Memory) (b : Nat) : Prop := ∀ e ∈ m, b < e.1

theorem Memory.wf_cons {k : Nat} {r : Record} {rest : Memory} :
    Memory.wf ((k, r) :: rest) = true ↔ r ≠ .zero ∧ Memory.above rest k ∧ Memory.wf rest = true := by
  simp [Memory.wf, and_assoc]

/-- An address that no entry lists reads as the all-zero record. -/
theorem Memory.read_unlisted {m : Memory} {a : Nat} (h : ∀ e ∈ m, e.1 ≠ a) : m.read a = .zero := by
  induction m with
  | nil => rfl
  | cons e rest ih =>
    obtain ⟨k, r⟩ := e
    have hk : k ≠ a := h (k, r) (by simp)
    simp only [Memory.read, if_neg hk]
    exact ih fun e he => h e (by simp [he])

theorem Memory.read_of_above {m : Memory} {a b : Nat} (h : m.above b) (hab : a ≤ b) : m.read a = .zero :=
  Memory.read_unlisted fun e he => by have := h e he; omega

/-- Every entry after a write was there before or is the one written. -/
theorem Memory.mem_write {m : Memory} {a : Nat} {r : Record} {e : Nat × Record} (h : e ∈ m.write a r) :
    e ∈ m ∨ e = (a, r) := by
  induction m with
  | nil => unfold Memory.write at h; split at h <;> simp_all
  | cons d rest ih =>
    obtain ⟨k, q⟩ := d
    unfold Memory.write at h
    split_ifs at h
    · exact .inl h
    · rcases List.mem_cons.mp h with rfl | h
      · exact .inr rfl
      · exact .inl h
    · exact .inl (List.mem_cons_of_mem _ h)
    · rcases List.mem_cons.mp h with rfl | h
      · exact .inr rfl
      · exact .inl (List.mem_cons_of_mem _ h)
    · rcases List.mem_cons.mp h with rfl | h
      · exact .inl List.mem_cons_self
      · exact (ih h).imp_left (List.mem_cons_of_mem _)

/-- A write keeps every entry above a bound that its own address is above. -/
theorem Memory.write_above {m : Memory} {a b : Nat} {r : Record} (h : m.above b) (hab : b < a) :
    Memory.above (m.write a r) b := by
  intro e he
  rcases Memory.mem_write he with he | rfl
  · exact h e he
  · exact hab

/-- A write keeps memory below a bound that its own address is below. -/
theorem Memory.write_mem_lt {m : Memory} {a n : Nat} {r : Record} (h : ∀ e ∈ m, e.1 < n) (ha : a < n) :
    ∀ e ∈ m.write a r, e.1 < n := by
  intro e he
  rcases Memory.mem_write he with he | rfl
  · exact h e he
  · exact ha

/-- A write keeps the canonical form. -/
theorem Memory.write_wf {m : Memory} (h : m.wf = true) (a : Nat) (r : Record) : Memory.wf (m.write a r) = true := by
  induction m with
  | nil => unfold Memory.write; split <;> simp_all [Memory.wf]
  | cons e rest ih =>
    obtain ⟨k, q⟩ := e
    obtain ⟨hq, hk, hrest⟩ := Memory.wf_cons.mp h
    unfold Memory.write
    split_ifs with h1 h2 h3 h4
    · exact h
    · refine Memory.wf_cons.mpr ⟨h2, ?_, h⟩
      intro e he
      rcases List.mem_cons.mp he with rfl | he
      · exact h1
      · exact h1.trans (hk e he)
    · exact hrest
    · exact Memory.wf_cons.mpr ⟨h4, h3 ▸ hk, hrest⟩
    · exact Memory.wf_cons.mpr ⟨hq, Memory.write_above hk (by omega), ih hrest⟩

/-- What a write does to a read of any address. -/
theorem Memory.read_write {m : Memory} (h : m.wf = true) (a : Nat) (r : Record) (b : Nat) :
    (m.write a r).read b = if b = a then r else m.read b := by
  induction m with
  | nil =>
    by_cases hr : r = .zero
    · simp [Memory.write, hr, Memory.read]
    · by_cases hb : b = a
      · simp [Memory.write, hr, Memory.read, hb]
      · have hb' : a ≠ b := fun e => hb e.symm
        simp [Memory.write, hr, Memory.read, hb, hb']
  | cons e rest ih =>
    obtain ⟨k, q⟩ := e
    obtain ⟨hq, hk, hrest⟩ := Memory.wf_cons.mp h
    unfold Memory.write
    by_cases h1 : a < k
    · have hlow : Memory.read ((k, q) :: rest) a = .zero :=
        Memory.read_unlisted fun e he => by
          rcases List.mem_cons.mp he with rfl | he
          · exact h1.ne'
          · have := hk e he; omega
      by_cases hr : r = .zero
      · simp only [if_pos h1, if_pos hr]
        split_ifs with hb
        · rw [hb, hlow, hr]
        · rfl
      · simp only [if_pos h1, if_neg hr]
        rw [Memory.read]
        by_cases hb : b = a
        · simp [hb]
        · rw [if_neg hb, if_neg fun e : a = b => hb e.symm]
    · by_cases h2 : a = k
      · subst h2
        by_cases hr : r = .zero
        · simp only [lt_irrefl, if_false, if_true, if_pos hr, Memory.read]
          by_cases hb : b = a
          · subst hb; rw [if_pos rfl, hr]; exact Memory.read_of_above hk le_rfl
          · rw [if_neg hb, if_neg fun e => hb e.symm]
        · simp only [lt_irrefl, if_false, if_true, if_neg hr, Memory.read]
          by_cases hb : b = a
          · simp [hb]
          · rw [if_neg hb, if_neg fun e => hb e.symm, if_neg fun e => hb e.symm]
      · simp only [if_neg h1, if_neg h2, Memory.read]
        by_cases hb : k = b
        · subst hb; rw [if_pos rfl, if_pos rfl, if_neg fun e => h2 e.symm]
        · rw [if_neg hb, if_neg hb]; exact ih hrest

/-- Memories in canonical form that read alike at every address are the same list. -/
theorem Memory.ext_read {m n : Memory} (hm : m.wf = true) (hn : n.wf = true) (h : ∀ a, m.read a = n.read a) : m = n := by
  induction m generalizing n with
  | nil =>
    cases n with
    | nil => rfl
    | cons e rest =>
      obtain ⟨k, q⟩ := e
      have := h k
      simp [Memory.read] at this
      exact absurd this.symm (Memory.wf_cons.mp hn).1
  | cons e rest ih =>
    obtain ⟨k, q⟩ := e
    obtain ⟨hq, hk, hrest⟩ := Memory.wf_cons.mp hm
    cases n with
    | nil =>
      have := h k
      simp [Memory.read] at this
      exact absurd this hq
    | cons e' rest' =>
      obtain ⟨k', q'⟩ := e'
      obtain ⟨hq', hk', hrest'⟩ := Memory.wf_cons.mp hn
      have hkk : k = k' := by
        by_contra hne
        rcases Nat.lt_or_gt_of_ne hne with hlt | hlt
        · have := h k
          rw [Memory.read, if_pos rfl, Memory.read, if_neg fun e => hne e.symm, Memory.read_of_above hk' hlt.le] at this
          exact hq this
        · have := h k'
          rw [Memory.read, if_neg hne, Memory.read, if_pos rfl, Memory.read_of_above hk hlt.le] at this
          exact hq' this.symm
      subst hkk
      have hqq : q = q' := by simpa [Memory.read] using h k
      subst hqq
      have : rest = rest' := ih hrest hrest' fun a => by
        by_cases ha : k = a
        · subst ha; rw [Memory.read_of_above hk le_rfl, Memory.read_of_above hk' le_rfl]
        · simpa [Memory.read, ha] using h a
      rw [this]

theorem Memory.storeSlot0_wf {m : Memory} (h : m.wf = true) (a : Nat) (v : Word) :
    Memory.wf (m.storeSlot0 a v) = true := Memory.write_wf h _ _

theorem Memory.storeSlot0_mem_lt {m : Memory} {a n : Nat} {v : Word} (h : ∀ e ∈ m, e.1 < n) (ha : a < n) :
    ∀ e ∈ m.storeSlot0 a v, e.1 < n := Memory.write_mem_lt h ha

/-- A store changes slot 0 of its own record and nothing else (R122). -/
theorem Memory.read_storeSlot0 {m : Memory} (h : m.wf = true) (a : Nat) (v : Word) (b : Nat) :
    (m.storeSlot0 a v).read b = if b = a then { m.read b with s0 := v } else m.read b := by
  rw [Memory.storeSlot0, Memory.read_write h]
  split_ifs with hb
  · rw [hb]
  · rfl

/-- The all-zero record is a record of words. -/
theorem Record.zero_fits (n : Nat) : Record.zero.fits n :=
  ⟨isWord_zero n, isWord_zero n, isWord_zero n, isWord_zero n⟩

/-- A memory of records of words reads as records of words. -/
theorem Memory.read_fits {m : Memory} {n : Nat} (h : ∀ e ∈ m, e.2.fits n) (a : Nat) : (m.read a).fits n := by
  induction m with
  | nil => exact Record.zero_fits n
  | cons e rest ih =>
    unfold Memory.read
    split
    · exact h e (by simp)
    · exact ih fun d hd => h d (by simp [hd])

/-- A write of a record of words keeps memory so. -/
theorem Memory.write_fits {m : Memory} {n : Nat} (h : ∀ e ∈ m, e.2.fits n) (a : Nat) {r : Record} (hr : r.fits n) :
    ∀ e ∈ m.write a r, e.2.fits n := by
  intro e he
  rcases Memory.mem_write he with he | rfl
  · exact h e he
  · exact hr

theorem Memory.storeSlot0_fits {m : Memory} {n : Nat} (h : ∀ e ∈ m, e.2.fits n) (a : Nat) {v : Word}
    (hv : isWord n v) : ∀ e ∈ m.storeSlot0 a v, e.2.fits n :=
  Memory.write_fits h a ⟨hv, (Memory.read_fits h a).2⟩

/-- Memory after reset has the canonical form. -/
theorem State.resetWith_mem_wf (c : Config) : Memory.wf (State.resetWith c).mem = true := rfl

end Sys2Proof.Machine
end

