-- ==== Sys2Proof/Laws/State.lean ====
section
/-! SUPPORT. What each update of the state does to each field: one lemma a field, so that no proof unfolds an update. -/

namespace Sys2Proof.Machine

variable (s : State)

@[simp] theorem State.setPc_config (t : Word) : (s.setPc t).config = s.config := rfl
@[simp] theorem State.setPc_gprs (t : Word) : (s.setPc t).gprs = s.gprs := rfl
@[simp] theorem State.setPc_sp (t : Word) : (s.setPc t).sp = s.sp := rfl
@[simp] theorem State.setPc_pc (t : Word) : (s.setPc t).pc = t := rfl
@[simp] theorem State.setPc_lr (t : Word) : (s.setPc t).lr = s.lr := rfl
@[simp] theorem State.setPc_mem (t : Word) : (s.setPc t).mem = s.mem := rfl
@[simp] theorem State.setPc_status (t : Word) : (s.setPc t).status = s.status := rfl

@[simp] theorem State.setLr_config (v : Word) : (s.setLr v).config = s.config := rfl
@[simp] theorem State.setLr_gprs (v : Word) : (s.setLr v).gprs = s.gprs := rfl
@[simp] theorem State.setLr_sp (v : Word) : (s.setLr v).sp = s.sp := rfl
@[simp] theorem State.setLr_pc (v : Word) : (s.setLr v).pc = s.pc := rfl
@[simp] theorem State.setLr_lr (v : Word) : (s.setLr v).lr = v := rfl
@[simp] theorem State.setLr_mem (v : Word) : (s.setLr v).mem = s.mem := rfl
@[simp] theorem State.setLr_status (v : Word) : (s.setLr v).status = s.status := rfl

@[simp] theorem State.store_config (a : Nat) (v : Word) : (s.store a v).config = s.config := rfl
@[simp] theorem State.store_gprs (a : Nat) (v : Word) : (s.store a v).gprs = s.gprs := rfl
@[simp] theorem State.store_sp (a : Nat) (v : Word) : (s.store a v).sp = s.sp := rfl
@[simp] theorem State.store_pc (a : Nat) (v : Word) : (s.store a v).pc = s.pc := rfl
@[simp] theorem State.store_lr (a : Nat) (v : Word) : (s.store a v).lr = s.lr := rfl
@[simp] theorem State.store_mem (a : Nat) (v : Word) : (s.store a v).mem = s.mem.storeSlot0 a v := rfl
@[simp] theorem State.store_status (a : Nat) (v : Word) : (s.store a v).status = s.status := rfl

@[simp] theorem State.halt_config (r : HaltReason) : (s.halt r).config = s.config := rfl
@[simp] theorem State.halt_gprs (r : HaltReason) : (s.halt r).gprs = s.gprs := rfl
@[simp] theorem State.halt_sp (r : HaltReason) : (s.halt r).sp = s.sp := rfl
@[simp] theorem State.halt_pc (r : HaltReason) : (s.halt r).pc = s.pc := rfl
@[simp] theorem State.halt_lr (r : HaltReason) : (s.halt r).lr = s.lr := rfl
@[simp] theorem State.halt_mem (r : HaltReason) : (s.halt r).mem = s.mem := rfl
@[simp] theorem State.halt_status (r : HaltReason) : (s.halt r).status = { s.status with state := .halted, reason := r } := rfl

@[simp] theorem State.fatal_config (c : Cause) (w : Word) : (s.fatal c w).config = s.config := rfl
@[simp] theorem State.fatal_gprs (c : Cause) (w : Word) : (s.fatal c w).gprs = s.gprs := rfl
@[simp] theorem State.fatal_sp (c : Cause) (w : Word) : (s.fatal c w).sp = s.sp := rfl
@[simp] theorem State.fatal_pc (c : Cause) (w : Word) : (s.fatal c w).pc = s.pc := rfl
@[simp] theorem State.fatal_lr (c : Cause) (w : Word) : (s.fatal c w).lr = s.lr := rfl
@[simp] theorem State.fatal_mem (c : Cause) (w : Word) : (s.fatal c w).mem = s.mem := rfl
@[simp] theorem State.fatal_status (c : Cause) (w : Word) : (s.fatal c w).status = { s.status with state := .fatal, cause := c, info := w } := rfl

@[simp] theorem State.advance_config : (s.advance).config = s.config := rfl
@[simp] theorem State.advance_gprs : (s.advance).gprs = s.gprs := rfl
@[simp] theorem State.advance_sp : (s.advance).sp = s.sp := rfl
@[simp] theorem State.advance_pc : (s.advance).pc = s.nextPc := rfl
@[simp] theorem State.advance_lr : (s.advance).lr = s.lr := rfl
@[simp] theorem State.advance_mem : (s.advance).mem = s.mem := rfl
@[simp] theorem State.advance_status : (s.advance).status = s.status := rfl

@[simp] theorem State.resetWith_config (c : Config) : (State.resetWith c).config = c := rfl
@[simp] theorem State.resetWith_gprs (c : Config) : (State.resetWith c).gprs = List.replicate c.ngpr 0 := rfl
@[simp] theorem State.resetWith_sp (c : Config) : (State.resetWith c).sp = c.stackUpperBound := rfl
@[simp] theorem State.resetWith_pc (c : Config) : (State.resetWith c).pc = c.startAddress := rfl
@[simp] theorem State.resetWith_lr (c : Config) : (State.resetWith c).lr = 0 := rfl
@[simp] theorem State.resetWith_mem (c : Config) : (State.resetWith c).mem = [] := rfl
@[simp] theorem State.resetWith_status (c : Config) : (State.resetWith c).status = {} := rfl

/-! ## Writing a register by its index -/

@[simp] theorem State.setX_config (i : Nat) (v : Word) : (s.setX i v).config = s.config := by
  unfold State.setX; split <;> rfl

@[simp] theorem State.setX_mem (i : Nat) (v : Word) : (s.setX i v).mem = s.mem := by
  unfold State.setX; split <;> rfl

@[simp] theorem State.setX_status (i : Nat) (v : Word) : (s.setX i v).status = s.status := by
  unfold State.setX; split <;> rfl

@[simp] theorem State.setX_gprs_length (i : Nat) (v : Word) : (s.setX i v).gprs.length = s.gprs.length := by
  unfold State.setX; split <;> simp

@[simp] theorem State.setReg_config (w v : Word) : (s.setReg w v).config = s.config := s.setX_config _ _

@[simp] theorem State.setReg_mem (w v : Word) : (s.setReg w v).mem = s.mem := s.setX_mem _ _

@[simp] theorem State.setReg_status (w v : Word) : (s.setReg w v).status = s.status := s.setX_status _ _

@[simp] theorem State.setReg_gprs_length (w v : Word) : (s.setReg w v).gprs.length = s.gprs.length :=
  s.setX_gprs_length _ _

/-- Two states that agree on the configuration and the registers read every index alike. -/
theorem State.x_congr {s t : State} (hc : t.config = s.config) (hg : t.gprs = s.gprs) (hp : t.pc = s.pc)
    (hs : t.sp = s.sp) (hl : t.lr = s.lr) (j : Nat) : t.x j = s.x j := by
  simp only [State.x, hc, hg, hp, hs, hl]

@[simp] theorem State.x_halt (r : HaltReason) (j : Nat) : (s.halt r).x j = s.x j :=
  State.x_congr (by simp) (by simp) (by simp) (by simp) (by simp) j

@[simp] theorem State.x_fatal (c : Cause) (w : Word) (j : Nat) : (s.fatal c w).x j = s.x j :=
  State.x_congr (by simp) (by simp) (by simp) (by simp) (by simp) j

@[simp] theorem State.x_store (a : Nat) (v : Word) (j : Nat) : (s.store a v).x j = s.x j :=
  State.x_congr (by simp) (by simp) (by simp) (by simp) (by simp) j

end Sys2Proof.Machine
end

