-- ==== Sys2Proof/Laws/Registers.lean ====
section
/-! SUPPORT. The banks of a valid configuration, and reading a register after writing one. -/

namespace Sys2Proof

/-- The four reserved indices of a valid configuration are distinct and follow the general bank. -/
theorem Config.reserved_facts {c : Config} (h : c.registersValid) :
    c.idxZr ≠ c.idxSp ∧ c.idxZr ≠ c.idxPc ∧ c.idxZr ≠ c.idxLr ∧ c.idxSp ≠ c.idxPc ∧ c.idxSp ≠ c.idxLr ∧
      c.idxPc ≠ c.idxLr ∧ c.ngpr ≤ c.idxZr ∧ c.ngpr ≤ c.idxSp ∧ c.ngpr ≤ c.idxPc ∧ c.ngpr ≤ c.idxLr ∧
      c.idxZr < c.nreg ∧ c.idxSp < c.nreg ∧ c.idxPc < c.nreg ∧ c.idxLr < c.nreg := by
  obtain ⟨-, hd, hr, -⟩ := h
  simp only [Config.reserved, List.nodup_cons, List.mem_cons, List.not_mem_nil, not_or, or_false, forall_eq_or_imp,
    forall_eq] at hd hr
  obtain ⟨⟨h1, h2, h3⟩, ⟨h4, h5⟩, h6, -⟩ := hd
  obtain ⟨⟨z1, z2⟩, ⟨s1, s2⟩, ⟨p1, p2⟩, ⟨l1, l2⟩⟩ := hr
  exact ⟨h1, h2, h3, h4, h5, h6, z1, s1, p1, l1, z2, s2, p2, l2⟩

/-- An index below NREG that is no reserved index is a general one: the reserved indices fill the places above NGPR. -/
theorem Config.bank_general_lt {c : Config} (h : c.registersValid) {i n : Nat} (hi : i < c.nreg)
    (hb : c.bank i = .general n) : n = i ∧ n < c.ngpr := by
  obtain ⟨h1, h2, h3, h4, h5, h6, z1, s1, p1, l1, z2, s2, p2, l2⟩ := Config.reserved_facts h
  unfold Config.bank at hb
  split_ifs at hb with a1 a2 a3 a4
  have hn : i = n := Bank.general.inj hb
  simp only [Config.nreg] at hi z2 s2 p2 l2
  exact ⟨hn.symm, by omega⟩

@[simp] theorem Config.bank_idxZr (c : Config) : c.bank c.idxZr = .zero := by simp [Config.bank]

theorem Config.bank_idxPc {c : Config} (h : c.registersValid) : c.bank c.idxPc = .programCounter := by
  have := Config.reserved_facts h
  simp [Config.bank, this.2.1.symm]

theorem Config.bank_idxSp {c : Config} (h : c.registersValid) : c.bank c.idxSp = .stackPointer := by
  have := Config.reserved_facts h
  simp [Config.bank, this.1.symm, this.2.2.2.1]

theorem Config.bank_idxLr {c : Config} (h : c.registersValid) : c.bank c.idxLr = .link := by
  have := Config.reserved_facts h
  simp [Config.bank, this.2.2.1.symm, this.2.2.2.2.1.symm, this.2.2.2.2.2.1.symm]

/-- Two indices of one bank are one index. -/
theorem Config.bank_injective (c : Config) {i j : Nat} (h : c.bank i = c.bank j) : i = j := by
  unfold Config.bank at h
  split_ifs at h <;> simp_all

/-- The check of a register field, as the two bounds it makes (R69). -/
theorem Config.isReg_iff {c : Config} {w : Int} : c.isReg w = true ↔ 0 ≤ w ∧ w < (c.nreg : Int) := by
  simp [Config.isReg]

/-- A field that names a register is an index below NREG (R69). -/
theorem Config.isReg_toNat {c : Config} {w : Int} (h : c.isReg w = true) : w.toNat < c.nreg ∧ w = w.toNat := by
  have := Config.isReg_iff.mp h
  omega

/-- An index below NREG, as a field, names its register. -/
theorem Config.isReg_cast {c : Config} {i : Nat} (h : i < c.nreg) : c.isReg (i : Int) = true := by
  rw [Config.isReg_iff]
  omega

namespace Machine

variable {s : State}

/-- The zero register reads 0 in every state (R23). -/
@[simp] theorem State.x_idxZr (s : State) : s.x s.config.idxZr = 0 := by simp [State.x]

/-- A write to the zero register is discarded (R23). -/
@[simp] theorem State.setX_idxZr (s : State) (v : Word) : s.setX s.config.idxZr v = s := by simp [State.setX]

theorem State.x_idxPc (h : s.config.registersValid) : s.x s.config.idxPc = s.pc := by
  simp [State.x, Config.bank_idxPc h]

theorem State.x_idxSp (h : s.config.registersValid) : s.x s.config.idxSp = s.sp := by
  simp [State.x, Config.bank_idxSp h]

theorem State.x_idxLr (h : s.config.registersValid) : s.x s.config.idxLr = s.lr := by
  simp [State.x, Config.bank_idxLr h]

/-- Reading an index after writing one (R9): the written value at the index written, unless that is the zero register. -/
theorem State.x_setX (h : s.config.registersValid) (hl : s.gprs.length = s.config.ngpr) {i : Nat}
    (hi : i < s.config.nreg) (v : Word) (j : Nat) :
    (s.setX i v).x j = if j = i ∧ i ≠ s.config.idxZr then v else s.x j := by
  by_cases hz : i = s.config.idxZr
  · subst hz; simp
  have hbz : s.config.bank i ≠ .zero := fun e =>
    hz (Config.bank_injective s.config (e.trans (Config.bank_idxZr _).symm))
  by_cases hj : j = i
  · subst hj
    simp only [hz, ne_eq, not_false_eq_true, and_self, if_true]
    unfold State.x
    rw [State.setX_config]
    unfold State.setX
    cases hb : s.config.bank j with
    | zero => exact absurd hb hbz
    | general n =>
      have := (Config.bank_general_lt h hi hb).2
      simp [List.getD_eq_getElem?_getD, hl, this]
    | _ => rfl
  · simp only [hj, false_and, if_false]
    have hne : s.config.bank j ≠ s.config.bank i := fun e => hj (Config.bank_injective _ e)
    unfold State.x
    rw [State.setX_config]
    unfold State.setX
    cases hb : s.config.bank i <;> cases hb' : s.config.bank j <;> simp_all [List.getD_eq_getElem?_getD]
    rename_i n m
    rw [List.getElem?_set_ne (fun e => hne e.symm)]

/-- Reading an index after pc takes a value. -/
theorem State.x_setPc (h : s.config.registersValid) (t : Word) (j : Nat) :
    (s.setPc t).x j = if j = s.config.idxPc then t else s.x j := by
  by_cases hj : j = s.config.idxPc
  · subst hj; simp [State.x, Config.bank_idxPc h]
  · have hne : s.config.bank j ≠ .programCounter := fun e =>
      hj (Config.bank_injective _ (e.trans (Config.bank_idxPc h).symm))
    simp only [hj, if_false, State.x, State.setPc_config]
    cases hb : s.config.bank j <;> simp_all

/-- Reading an index after the step's pc update. -/
theorem State.x_advance (h : s.config.registersValid) (j : Nat) :
    s.advance.x j = if j = s.config.idxPc then s.nextPc else s.x j := State.x_setPc h _ j

/-- Reading an index after lr takes a value. -/
theorem State.x_setLr (h : s.config.registersValid) (v : Word) (j : Nat) :
    (s.setLr v).x j = if j = s.config.idxLr then v else s.x j := by
  by_cases hj : j = s.config.idxLr
  · subst hj; simp [State.x, Config.bank_idxLr h]
  · have hne : s.config.bank j ≠ .link := fun e =>
      hj (Config.bank_injective _ (e.trans (Config.bank_idxLr h).symm))
    simp only [hj, if_false, State.x, State.setLr_config]
    cases hb : s.config.bank j <;> simp_all

end Machine

end Sys2Proof
end

