-- ==== Sys2Proof/Laws/Operands.lean ====
section
/-! SUPPORT. What the checks of an instruction's rule can do, and that every shared operation keeps the invariant. -/

namespace Sys2Proof.Machine

variable {s : State}

/-! ## The checks -/

theorem State.checkRegs_nil (t : State) : s.checkRegs [] t = t := rfl

theorem State.checkRegs_cons (w : Word) (ws : List Word) (t : State) :
    s.checkRegs (w :: ws) t = if s.config.isReg w = true then s.checkRegs ws t else s.fatal .regIndex w := by
  unfold State.checkRegs
  by_cases h : s.config.isReg w = true
  · simp [h]
  · simp [h]

/-- Fields that all name registers pass (R96). -/
theorem State.checkRegs_ok {fields : List Word} (h : ∀ w ∈ fields, s.config.isReg w = true) (t : State) :
    s.checkRegs fields t = t := by
  induction fields with
  | nil => rfl
  | cons w ws ih =>
    rw [State.checkRegs_cons, if_pos (h w (by simp))]
    exact ih fun u hu => h u (by simp [hu])

/-- The first field that names no register is the one reported (R96, R155). -/
theorem State.checkRegs_bad {before after : List Word} {bad : Word} (h : ∀ w ∈ before, s.config.isReg w = true)
    (hb : s.config.isReg bad = false) (t : State) :
    s.checkRegs (before ++ bad :: after) t = s.fatal .regIndex bad := by
  induction before with
  | nil => rw [List.nil_append, State.checkRegs_cons, if_neg (by simp [hb])]
  | cons w ws ih =>
    rw [List.cons_append, State.checkRegs_cons, if_pos (h w (by simp))]
    exact ih fun u hu => h u (by simp [hu])

/-- All that the register-index check can do. -/
theorem State.checkRegs_cases (s : State) (fields : List Word) (t : State) :
    ((∀ w ∈ fields, s.config.isReg w = true) ∧ s.checkRegs fields t = t) ∨
      ∃ bad ∈ fields, s.config.isReg bad = false ∧ s.checkRegs fields t = s.fatal .regIndex bad := by
  unfold State.checkRegs
  cases h : fields.find? (fun w => !s.config.isReg w) with
  | none => exact .inl ⟨fun w hw => by simpa using List.find?_eq_none.mp h w hw, rfl⟩
  | some bad => exact .inr ⟨bad, List.mem_of_find?_eq_some h, by simpa using List.find?_some h, rfl⟩

/-- All that the address check can do. -/
theorem State.checkAddr_cases (s : State) (ea : Word) (t : State) :
    (s.config.validAddr ea = true ∧ s.checkAddr ea t = t) ∨
      (s.config.validAddr ea = false ∧ s.checkAddr ea t = s.fatal .memBounds ea) := by
  unfold State.checkAddr
  cases s.config.validAddr ea <;> simp

/-- All that the end of a checked instruction can do. -/
theorem State.advanceUnless_cases (s : State) (bad : Bool) (res : Word) :
    (bad = false ∧ s.advanceUnless bad res = s.advance) ∨
      (bad = true ∧ s.advanceUnless bad res = s.fatal .stackOverflow res) := by
  cases bad <;> simp [State.advanceUnless]

/-- The field test, as the index it compares (R118, R133). -/
@[simp] theorem fieldIs_iff {slot : Word} {i : Nat} : fieldIs slot i = true ↔ slot.toNat = i := by simp [fieldIs]

/-- The zero test (R131, R132). -/
@[simp] theorem isZero_iff {v : Word} : isZero v = true ↔ v = 0 := by simp [isZero]

/-- The upper stack bound (R118). -/
@[simp] theorem aboveStack_iff {c : Config} {res : Int} :
    aboveStack c res = true ↔ (c.stackUpperBound : Int) < res := by simp [aboveStack]

/-- The lower stack bound (R118). -/
@[simp] theorem belowStack_iff {c : Config} {res : Int} :
    belowStack c res = true ↔ res < (c.stackUpperBound : Int) - c.stackSize := by simp [belowStack]

/-- A valid address as a number (R41). -/
theorem validAddr_iff {c : Config} {a : Int} : c.validAddr a = true ↔ 0 ≤ a ∧ a < c.memSize := by
  simp [Config.validAddr]

/-- The record index of a valid address word. -/
theorem validAddr_toNat {c : Config} {w : Int} (h : c.validAddr w = true) : w.toNat < c.memSize ∧ w = w.toNat := by
  obtain ⟨h0, h1⟩ := validAddr_iff.mp h
  omega

/-! ## Registers named by fields -/

/-- Reading a register after an instruction has written its destination. -/
theorem State.x_setReg (h : s.inv) {w : Word} (hw : s.config.isReg w = true) (v : Word) (j : Nat) :
    (s.setReg w v).x j = if j = w.toNat ∧ w.toNat ≠ s.config.idxZr then v else s.x j :=
  State.x_setX h.1.1 h.2.1 (Config.isReg_toNat hw).1 v j

/-! ## The invariant -/

/-- XLEN is at least 1. -/
theorem State.one_le_xlen (h : s.inv) : 1 ≤ s.config.xlen := by
  have := h.1.2.2.2.1.1
  omega

/-- Every register reads as a word. -/
theorem State.x_isWord (h : s.inv) (j : Nat) : isWord s.config.xlen (s.x j) := by
  obtain ⟨-, -, -, -, -, hg, hsp, hpc, hlr, -⟩ := h
  unfold State.x
  cases s.config.bank j with
  | zero => exact isWord_zero _
  | general n =>
    simp only [List.getD_eq_getElem?_getD]
    cases hn : s.gprs[n]? with
    | none => exact isWord_zero _
    | some v => exact hg v (List.mem_of_getElem? hn)
  | stackPointer => exact hsp
  | programCounter => exact hpc
  | link => exact hlr

theorem State.nextPc_isWord (h : s.inv) : isWord s.config.xlen s.nextPc := wrap_isWord (State.one_le_xlen h) _

theorem State.inv_setPc (h : s.inv) {t : Word} (ht : isWord s.config.xlen t) : (s.setPc t).inv := by
  obtain ⟨hc, hl, hm, hb, hs, hg, hsp, -, hlr, hi, hf⟩ := h
  exact ⟨hc, hl, hm, hb, hs, hg, hsp, ht, hlr, hi, hf⟩

theorem State.inv_setLr (h : s.inv) {v : Word} (hv : isWord s.config.xlen v) : (s.setLr v).inv := by
  obtain ⟨hc, hl, hm, hb, hs, hg, hsp, hpc, -, hi, hf⟩ := h
  exact ⟨hc, hl, hm, hb, hs, hg, hsp, hpc, hv, hi, hf⟩

theorem State.inv_advance (h : s.inv) : s.advance.inv := State.inv_setPc h (State.nextPc_isWord h)

theorem State.inv_setReg (h : s.inv) (w : Word) {v : Word} (hv : isWord s.config.xlen v) : (s.setReg w v).inv := by
  obtain ⟨hc, hl, hm, hb, hs, hg, hsp, hpc, hlr, hi, hf⟩ := h
  unfold State.setReg State.setX
  cases s.config.bank w.toNat with
  | zero => exact ⟨hc, hl, hm, hb, hs, hg, hsp, hpc, hlr, hi, hf⟩
  | general n =>
    refine ⟨hc, by simpa using hl, hm, hb, hs, fun u hu => ?_, hsp, hpc, hlr, hi, hf⟩
    rcases List.mem_or_eq_of_mem_set hu with hu | rfl
    · exact hg u hu
    · exact hv
  | stackPointer => exact ⟨hc, hl, hm, hb, hs, hg, hv, hpc, hlr, hi, hf⟩
  | programCounter => exact ⟨hc, hl, hm, hb, hs, hg, hsp, hv, hlr, hi, hf⟩
  | link => exact ⟨hc, hl, hm, hb, hs, hg, hsp, hpc, hv, hi, hf⟩

theorem State.inv_store (h : s.inv) {a : Nat} (ha : a < s.config.memSize) {v : Word} (hv : isWord s.config.xlen v) :
    (s.store a v).inv := by
  obtain ⟨hc, hl, hm, hb, hs, hg, hsp, hpc, hlr, hi, hf⟩ := h
  exact ⟨hc, hl, Memory.storeSlot0_wf hm a v, Memory.storeSlot0_mem_lt hb ha, hs, hg, hsp, hpc, hlr, hi,
    Memory.storeSlot0_fits hf a hv⟩

/-- A halt keeps the invariant of a running state. -/
theorem State.inv_halt (h : s.inv) (hr : s.status.state = .running) {r : HaltReason} (hne : r ≠ .none) :
    (s.halt r).inv := by
  obtain ⟨hc, hl, hm, hb, ⟨h1, h2, h3⟩, hw⟩ := h
  refine ⟨hc, hl, hm, hb, ?_, hw⟩
  simp_all [Status.coherent]

/-- A fatal condition keeps the invariant of a running state. -/
theorem State.inv_fatal (h : s.inv) (hr : s.status.state = .running) {c : Cause} (hne : c ≠ .none) {w : Word}
    (hw : isWord s.config.xlen w) : (s.fatal c w).inv := by
  obtain ⟨hc, hl, hm, hb, ⟨h1, h2, h3⟩, hg, hsp, hpc, hlr, -, hf⟩ := h
  refine ⟨hc, hl, hm, hb, ?_, hg, hsp, hpc, hlr, hw, hf⟩
  simp_all [Status.coherent]

/-- A host load of a record of words keeps the invariant (R174). -/
theorem State.inv_load (h : s.inv) {a : Int} {r : Record} (hr : r.fits s.config.xlen) {t : State}
    (ht : s.load a r = some t) : t.inv := by
  unfold State.load at ht
  split at ht
  · rename_i hv
    obtain ⟨h0, h1⟩ := validAddr_iff.mp hv
    have ha : a.toNat < s.config.memSize := by omega
    obtain ⟨hc, hl, hm, hb, hs, hg, hsp, hpc, hlr, hi, hf⟩ := h
    cases ht
    exact ⟨hc, hl, Memory.write_wf (Memory.write_wf hm _ _) _ _, Memory.write_mem_lt (Memory.write_mem_lt hb ha) ha, hs,
      hg, hsp, hpc, hlr, hi, Memory.write_fits (Memory.write_fits hf _ (Record.zero_fits _)) _ hr⟩
  · cases ht

end Sys2Proof.Machine
end

