-- ==== Sys2Proof/Laws/PerInstr.lean ====
section
/-! SUPPORT. Families of statements about every instruction, one lemma a constructor. Family EncodesOpcode: slot 0 of an
instruction's record selects the instruction's own mnemonic (R71, R72). -/

namespace Sys2Proof.Laws.EncodesOpcode

/-- Slot 0 of the encoded record selects the instruction's mnemonic, and nothing for no instruction. -/
def Statement (i : Instr) : Prop :=
  ∀ o : Opcodes, o.valid → i.encodable o = true → o.lookup (encode o i).s0 = i.mnemonic

theorem of_mnemonic {i : Instr} {m : Mnemonic} (h : i.mnemonic = some m) : Statement i := fun o ho _ => by
  rw [encode_s0 o h, Opcodes.lookup_number ho, h]

theorem add (rd rn rm : Word) : Statement (.add rd rn rm) := of_mnemonic rfl

theorem addi (rd rn imm : Word) : Statement (.addi rd rn imm) := of_mnemonic rfl

theorem sub (rd rn rm : Word) : Statement (.sub rd rn rm) := of_mnemonic rfl

theorem subi (rd rn imm : Word) : Statement (.subi rd rn imm) := of_mnemonic rfl

theorem ldur (rt rn imm : Word) : Statement (.ldur rt rn imm) := of_mnemonic rfl

theorem stur (rt rn imm : Word) : Statement (.stur rt rn imm) := of_mnemonic rfl

theorem lsl (rd rn imm : Word) : Statement (.lsl rd rn imm) := of_mnemonic rfl

theorem cbz (rt target : Word) : Statement (.cbz rt target) := of_mnemonic rfl

theorem cbnz (rt target : Word) : Statement (.cbnz rt target) := of_mnemonic rfl

theorem br (rn : Word) : Statement (.br rn) := of_mnemonic rfl

theorem bl (target : Word) : Statement (.bl target) := of_mnemonic rfl

theorem b (target : Word) : Statement (.b target) := of_mnemonic rfl

theorem noInstruction (opcode : Word) : Statement (.noInstruction opcode) := fun _ _ he => by
  simpa [Instr.encodable, encode, Instr.mnemonic] using he

end Sys2Proof.Laws.EncodesOpcode
end

