-- ==== Sys2Proof/Laws/Step.lean ====
section
/-! SUPPORT. What the steps before an instruction's rule can do. -/

namespace Sys2Proof.Machine

variable {s : State}

/-- All that steps 0 to 3 of R92 can do: an idle step, an invalid pc, or a decoded instruction. -/
theorem State.fetchDecode_cases (s : State) :
    (s.status.state ≠ .running ∧ s.fetchDecode = .error s) ∨
      (s.status.state = .running ∧ s.config.validAddr s.pc = false ∧
        s.fetchDecode = .error (s.fatal .pcInvalid s.pc)) ∨
      (s.status.state = .running ∧ s.config.validAddr s.pc = true ∧
        s.fetchDecode = .ok (decode s.config.opc s.fetched)) := by
  unfold State.fetchDecode
  by_cases h : s.status.state = .running
  · cases hv : s.config.validAddr s.pc <;> simp [h]
  · simp [h]

end Sys2Proof.Machine
end

