-- ==== Sys2Proof/Laws/Text.lean ====
section
/-! SUPPORT. Decimal numbers and tokens: a number written in decimal reads back, and a line splits at its white space. -/

namespace Sys2Proof.Laws.Text

open Sys2Proof.Machine.Assembler

/-! ## Decimal numbers -/

theorem digitChar_isDigit {d : Nat} (h : d < 10) : (digitChar d).isDigit = true := by
  interval_cases d <;> decide

theorem digitChar_value {d : Nat} (h : d < 10) : (digitChar d).toNat - 48 = d := by
  interval_cases d <;> decide

/-- Reading on over the digits of `n` shifts what was read before by their number and adds `n`. -/
theorem digitsFrom_decimalFuel (f n acc : Nat) (rest : List Char) (h : n < 10 ^ (f + 1)) :
    digitsFrom acc (decimalFuel f n ++ rest) = digitsFrom (10 ^ (decimalFuel f n).length * acc + n) rest := by
  induction f generalizing n acc rest with
  | zero =>
    have hn : n % 10 = n := Nat.mod_eq_of_lt (by simpa using h)
    have hd : n < 10 := by simpa using h
    simp [decimalFuel, digitsFrom, hn, digitChar_isDigit hd, digitChar_value hd]
  | succ f ih =>
    unfold decimalFuel
    split
    · rename_i hd
      simp [digitsFrom, digitChar_isDigit hd, digitChar_value hd]
    · have hm : n % 10 < 10 := Nat.mod_lt _ (by decide)
      rw [List.append_assoc, ih (n / 10) acc _ (by rw [pow_succ] at h; omega)]
      simp only [List.singleton_append, digitsFrom, digitChar_isDigit hm, if_true, List.length_append,
        List.length_singleton, show '0'.toNat = 48 from rfl, digitChar_value hm]
      congr 1
      rw [pow_succ]
      have := Nat.div_add_mod n 10
      ring_nf
      omega

theorem decimalFuel_isDigit (f n : Nat) : ∀ c ∈ decimalFuel f n, c.isDigit = true := by
  induction f generalizing n with
  | zero => simp [decimalFuel, digitChar_isDigit (Nat.mod_lt n (by decide : 0 < 10))]
  | succ f ih =>
    unfold decimalFuel
    split
    · rename_i hd
      simp [digitChar_isDigit hd]
    · intro c hc
      rcases List.mem_append.mp hc with hc | hc
      · exact ih _ c hc
      · simp only [List.mem_singleton] at hc
        rw [hc]
        exact digitChar_isDigit (Nat.mod_lt n (by decide))

theorem decimal_isDigit {n : Nat} : ∀ c ∈ decimal n, c.isDigit = true := decimalFuel_isDigit n n

theorem decimal_ne_nil (n : Nat) : decimal n ≠ [] := by
  unfold decimal
  cases n with
  | zero => simp [decimalFuel]
  | succ n => unfold decimalFuel; split <;> simp

/-- A decimal spelling has a first character, a digit. -/
theorem decimal_cons (n : Nat) : ∃ c cs, decimal n = c :: cs ∧ c.isDigit = true := by
  obtain ⟨c, cs, h⟩ := List.exists_cons_of_ne_nil (decimal_ne_nil n)
  exact ⟨c, cs, h, decimal_isDigit c (h ▸ List.mem_cons_self)⟩

/-- The digits of a number, read before anything that is no digit, are that number. -/
theorem leadingNat_decimal (n : Nat) {rest : List Char} (hr : ∀ c, rest.head? = some c → c.isDigit = false) :
    leadingNat (decimal n ++ rest) = some (n, rest) := by
  obtain ⟨c, cs, hc, hd⟩ := decimal_cons n
  have hn : n < 10 ^ (n + 1) :=
    lt_of_lt_of_le (Nat.lt_pow_self (by decide)) (Nat.pow_le_pow_right (by decide) (Nat.le_succ n))
  have h := digitsFrom_decimalFuel n n 0 rest hn
  rw [Nat.mul_zero, Nat.zero_add] at h
  have hrest : digitsFrom n rest = (n, rest) := by
    cases rest with
    | nil => rfl
    | cons d ds => simp [digitsFrom, hr d rfl]
  have hl : leadingNat (decimal n ++ rest) = some (digitsFrom 0 (decimal n ++ rest)) := by
    rw [hc]
    simp [leadingNat, hd]
  rw [hl, show digitsFrom 0 (decimal n ++ rest) = digitsFrom n rest from h, hrest]

/-- A signed number, read before anything that is no digit. -/
theorem leadingInt_decimalInt (n : Int) {rest : List Char} (hr : ∀ c, rest.head? = some c → c.isDigit = false) :
    leadingInt (decimalInt n ++ rest) = some (n, rest) := by
  unfold decimalInt
  split
  · rename_i h
    simp only [List.cons_append, leadingInt, leadingNat_decimal _ hr, Option.map_some]
    congr 2
    omega
  · rename_i h
    obtain ⟨c, cs, hc, hd⟩ := decimal_cons n.natAbs
    have hl := leadingNat_decimal n.natAbs hr
    rw [hc, List.cons_append] at hl ⊢
    have hm : c ≠ '-' := by rintro rfl; simp at hd
    have hp : c ≠ '+' := by rintro rfl; simp at hd
    unfold leadingInt
    split
    · rename_i h'; simp_all
    · rename_i h'; simp_all
    · rw [hl]
      simp only [Option.map_some]
      congr 2
      omega

/-! ## Tokens -/

/-- A text without white space. -/
abbrev Solid (t : List Char) : Prop := ∀ c ∈ t, c.isWhitespace = false

/-- A concrete text is checked character by character. -/
theorem solid_of_all {t : List Char} (h : (t.all fun c => !c.isWhitespace) = true) : Solid t := by
  intro c hc
  simpa using List.all_eq_true.mp h c hc

theorem isWhitespace_of_isDigit {c : Char} (h : c.isDigit = true) : c.isWhitespace = false := by
  simp only [Char.isDigit, Bool.and_eq_true, decide_eq_true_eq] at h
  simp only [Char.isWhitespace, Bool.or_eq_false_iff, decide_eq_false_iff_not]
  refine ⟨⟨⟨?_, ?_⟩, ?_⟩, ?_⟩ <;> rintro rfl <;> revert h <;> decide

theorem decimal_solid (n : Nat) : Solid (decimal n) := fun c hc => isWhitespace_of_isDigit (decimal_isDigit c hc)

theorem decimalInt_solid (n : Int) : Solid (decimalInt n) := by
  unfold decimalInt
  split
  · intro c hc
    rcases List.mem_cons.mp hc with rfl | hc
    · decide
    · exact decimal_solid _ c hc
  · exact decimal_solid _

theorem tokensFrom_append {t : List Char} (ht : Solid t) (acc rest : List Char) :
    tokensFrom acc (t ++ rest) = tokensFrom (acc ++ t) rest := by
  induction t generalizing acc with
  | nil => simp
  | cons c cs ih =>
    have hc : c.isWhitespace = false := ht c (by simp)
    have hcs : Solid cs := fun d hd => ht d (by simp [hd])
    simp only [List.cons_append, tokensFrom, hc, Bool.false_eq_true, if_false, ih hcs]
    simp

/-- A token and a space, then the tokens of the rest. -/
theorem tokens_append_space {t : List Char} (ht : Solid t) (hne : t ≠ []) (rest : List Char) :
    tokens (t ++ ' ' :: rest) = t :: tokens rest := by
  unfold tokens
  rw [tokensFrom_append ht, List.nil_append, tokensFrom, if_pos (by decide), if_neg hne]

/-- A line of one token. -/
theorem tokens_single {t : List Char} (ht : Solid t) (hne : t ≠ []) : tokens t = [t] := by
  have h := tokensFrom_append ht [] []
  rw [List.append_nil, List.nil_append] at h
  unfold tokens
  rw [h, tokensFrom, if_neg hne]

end Sys2Proof.Laws.Text
end

