-- ==== Sys2Proof/Tests/Slice0.lean ====
section
/-! SUPPORT. Tests. The expected results are those of the vectors of 95_test_vectors.md, named by their ids, or are worked
out by hand from the rule named. A theorem named witness_<Obligation> shows a state and operands that meet that
obligation's hypotheses together, and each of its clauses where it has several. -/

namespace Sys2Proof.Tests

open Sys2Proof Sys2Proof.Machine Sys2Proof.Claims

/-! ## Small states -/

/-- A record written as the spec writes it. -/
def rec4 (opcode op1 op2 op3 : Int) : Record := ⟨opcode, op1, op2, op3⟩

/-- The reset state with pc at an address, some registers and records changed, and a record at pc. -/
def before (pc : Int) (regs : List (Nat × Int)) (cells : List (Nat × Record)) (r : Record) : State :=
  let s := regs.foldl (fun s p => s.setX p.1 p.2) State.reset
  let s := cells.foldl (fun s p => { s with mem := s.mem.write p.1 p.2 }) s
  { s with pc := pc, mem := s.mem.write pc.toNat r }

/-- The state a step ends in. -/
def after (s : State) : State :=
  match step s with
  | .next t => t
  | .fault _ => s
  | .refused _ => s

/-- The step ended in the state FATAL with this cause and info. -/
def stopped (s : State) (cause : Cause) (info : Int) : Bool :=
  (after s).status == { state := .fatal, reason := .none, cause := cause, info := info }

/-- The step left the machine RUNNING with pc at this address. -/
def goesTo (s : State) (pc : Int) : Bool := (after s).status == {} && (after s).pc == pc

/-! ## Well-formed instructions -/

theorem test_wf_accepts : (Instr.add 35 0 32).wf Config.reference = true := by decide

theorem test_wf_rejects_register_36 : (Instr.add 1 2 36).wf Config.reference = false := by decide

theorem test_wf_rejects_negative_register : (Instr.br (-1)).wf Config.reference = false := by decide

theorem test_wf_rejects_no_word : (Instr.b 2147483648).wf Config.reference = false := by decide

theorem test_wf_rejects_recognized_number : (Instr.noInstruction 12).wf Config.reference = false := by decide

/-! ## Decoding of records written out from R60, R63 to R68, R71 -/

theorem test_decode_add : decode {} (rec4 1 3 1 2) = .add 3 1 2 := by decide

theorem test_decode_addi : decode {} (rec4 2 1 32 5) = .addi 1 32 5 := by decide

theorem test_decode_sub : decode {} (rec4 3 5 3 4) = .sub 5 3 4 := by decide

theorem test_decode_subi : decode {} (rec4 4 33 33 1025) = .subi 33 33 1025 := by decide

theorem test_decode_ldur : decode {} (rec4 5 3 2 (-4)) = .ldur 3 2 (-4) := by decide

theorem test_decode_stur : decode {} (rec4 6 2 32 100) = .stur 2 32 100 := by decide

theorem test_decode_lsl : decode {} (rec4 7 1 2 31) = .lsl 1 2 31 := by decide

theorem test_decode_cbz : decode {} (rec4 8 1 40 99) = .cbz 1 40 := by decide

theorem test_decode_cbnz : decode {} (rec4 9 1 40 0) = .cbnz 1 40 := by decide

theorem test_decode_br : decode {} (rec4 10 32 7 9) = .br 32 := by decide

theorem test_decode_bl : decode {} (rec4 11 20 35 35) = .bl 20 := by decide

theorem test_decode_b : decode {} (rec4 12 100 99 99) = .b 100 := by decide

theorem test_decode_no_instruction :
    decode {} (rec4 42 99 99 99) = .noInstruction 42 ∧ decode {} (rec4 (-1) 0 0 0) = .noInstruction (-1) ∧
      decode {} (rec4 268435457 0 0 0) = .noInstruction 268435457 := by decide

/-- The packed images that 95_test_vectors.md prints (R62), slot 3 first. -/
theorem test_packed_images :
    Record.ofNat 32 0x00000005000000200000000100000002 = rec4 2 1 32 5 ∧
      Record.ofNat 32 0x00000064000000200000000200000006 = rec4 6 2 32 100 ∧
      Record.ofNat 32 0xFFFFFFFD000000020000000100000002 = rec4 2 1 2 (-3) ∧
      (rec4 10 32 0 0).packed 32 = 0x0000000000000000000000200000000A := by decide

/-- The opcode table's match words, 32 bits each, the operand slots zero. -/
theorem test_decode_table_words :
    decodeTableWord 32 1 = some (.add 0 0 0) ∧ decodeTableWord 32 2 = some (.addi 0 0 0) ∧
      decodeTableWord 32 3 = some (.sub 0 0 0) ∧ decodeTableWord 32 4 = some (.subi 0 0 0) ∧
      decodeTableWord 32 5 = some (.ldur 0 0 0) ∧ decodeTableWord 32 6 = some (.stur 0 0 0) ∧
      decodeTableWord 32 7 = some (.lsl 0 0 0) ∧ decodeTableWord 32 8 = some (.cbz 0 0) ∧
      decodeTableWord 32 9 = some (.cbnz 0 0) ∧ decodeTableWord 32 10 = some (.br 0) ∧
      decodeTableWord 32 11 = some (.bl 0) ∧ decodeTableWord 32 12 = some (.b 0) ∧
      decodeTableWord 32 0 = some (.noInstruction 0) := by decide

/-! ## One step of each instruction -/

/-- A1: the sum wraps. -/
theorem test_add_wraps :
    let s := before 0 [(1, 2147483647), (2, 1)] [] (rec4 1 3 1 2)
    (after s).x 3 = (-2147483648) ∧ goesTo s 4 = true := by decide

/-- A5: a destination of IDX_PC is a jump to 4 past the result. -/
theorem test_add_to_pc : goesTo (before 0 [(1, 100)] [] (rec4 1 34 32 1)) 104 = true := by decide

/-- I3: the write is kept and pc stays. -/
theorem test_addi_stack_overflow :
    let s := before 0 [] [] (rec4 2 33 33 1)
    (after s).sp = 4096 ∧ (after s).pc = 0 ∧ stopped s .stackOverflow 4096 = true := by decide

/-- I6: the source field is not IDX_SP, so nothing is checked. -/
theorem test_addi_unchecked_source :
    let s := before 0 [] [] (rec4 2 33 9 5000)
    (after s).sp = 5000 ∧ goesTo s 4 = true := by decide

/-- S2v: 0 minus the least number. -/
theorem test_sub_wraps :
    let s := before 0 [(4, -2147483648)] [] (rec4 3 5 32 4)
    (after s).x 5 = (-2147483648) ∧ goesTo s 4 = true := by decide

/-- S5v: SUB moves sp without a check. -/
theorem test_sub_sp_unchecked :
    let s := before 0 [(1, 5000)] [] (rec4 3 33 33 1)
    (after s).sp = (-905) ∧ goesTo s 4 = true := by decide

/-- SI2, the source's scenario S5. -/
theorem test_subi_stack_overflow :
    let s := before 0 [] [] (rec4 4 33 33 1025)
    (after s).sp = 3070 ∧ (after s).pc = 0 ∧ stopped s .stackOverflow 3070 = true := by decide

/-- O6: the write goes to pc, and the addition of 4 does not follow. -/
theorem test_subi_overflow_to_pc :
    let s := before 0 [] [] (rec4 4 34 33 2000)
    (after s).pc = 2095 ∧ stopped s .stackOverflow 2095 = true := by decide

/-- L7. -/
theorem test_lsl_loses_high_bits :
    let s := before 0 [(2, 305419896)] [] (rec4 7 1 2 4)
    (after s).x 1 = 591751040 ∧ goesTo s 4 = true := by decide

/-- L3 and L4: amounts of 32 or more, a negative one among them, give 0. -/
theorem test_lsl_large_amounts :
    (after (before 0 [(1, 7), (2, 1)] [] (rec4 7 1 2 32))).x 1 = 0 ∧
      (after (before 0 [(1, 7), (2, 5)] [] (rec4 7 1 2 (-1)))).x 1 = 0 := by decide

/-- M1: slot 0 of the record. -/
theorem test_ldur_reads_slot_0 :
    let s := before 0 [] [(500, rec4 42 7 8 9)] (rec4 5 3 32 500)
    (after s).x 3 = 42 ∧ goesTo s 4 = true := by decide

/-- M6: the address sum wraps, and the register keeps its value. -/
theorem test_ldur_bounds :
    let s := before 0 [(2, 2147483647), (3, 77)] [] (rec4 5 3 2 1)
    (after s).x 3 = 77 ∧ (after s).pc = 0 ∧ stopped s .memBounds (-2147483648) = true := by decide

/-- T2: slots 1 to 3 are kept. -/
theorem test_stur_keeps_operand_slots :
    let s := before 0 [(2, -5)] [(100, rec4 1 2 3 4)] (rec4 6 2 32 100)
    (after s).mem.read 100 = rec4 (-5) 2 3 4 ∧ goesTo s 4 = true := by decide

/-- T8: a store over the instruction itself. -/
theorem test_stur_over_itself :
    let s := before 16 [] [] (rec4 6 2 32 16)
    (after s).mem.read 16 = rec4 0 2 32 16 ∧ goesTo s 20 = true := by decide

/-- CZ1 and CZ2. -/
theorem test_cbz :
    goesTo (before 8 [] [] (rec4 8 1 40 0)) 40 = true ∧ goesTo (before 8 [(1, 3)] [] (rec4 8 1 40 0)) 12 = true := by
  decide

/-- CZ6: IDX_PC as the register tested. -/
theorem test_cbz_of_pc : goesTo (before 8 [] [] (rec4 8 34 40 0)) 12 = true := by decide

/-- CN1 and CN2. -/
theorem test_cbnz :
    goesTo (before 8 [] [] (rec4 9 1 40 0)) 12 = true ∧ goesTo (before 8 [(1, -1)] [] (rec4 9 1 40 0)) 40 = true := by
  decide

/-- CN3 and CN5: never taken on XZR; an invalid target is written all the same. -/
theorem test_cbnz_corners :
    goesTo (before 8 [] [] (rec4 9 32 40 0)) 12 = true ∧ goesTo (before 8 [(1, 1)] [] (rec4 9 1 5000 0)) 5000 = true := by
  decide

/-- BR1: a halt with pc unchanged. -/
theorem test_br_zero_register_halts :
    let s := before 8 [(1, 5)] [] (rec4 10 32 0 0)
    after s = { s with status := { state := .halted, reason := .brZr } } := by decide

/-- BR2: a register that holds 0 is not the zero register. -/
theorem test_br_zero_value : goesTo (before 8 [] [] (rec4 10 5 0 0)) 0 = true := by decide

/-- BL1. -/
theorem test_bl :
    let s := before 4 [] [] (rec4 11 20 0 0)
    (after s).lr = 8 ∧ goesTo s 20 = true := by decide

/-- BL3: the last instruction of memory. -/
theorem test_bl_links_past_memory :
    let s := before 4092 [] [] (rec4 11 20 35 35)
    (after s).lr = 4096 ∧ goesTo s 20 = true := by decide

/-- B1: nothing changes. -/
theorem test_b_to_itself :
    let s := before 8 [] [] (rec4 12 8 0 0)
    after s = s := by decide

/-- B4: the unused slots are no register fields. -/
theorem test_b_ignores_unused : goesTo (before 8 [] [] (rec4 12 100 99 99)) 100 = true := by decide

/-- Z4. -/
theorem test_no_instruction_halts :
    let s := before 8 [] [] (rec4 42 99 99 99)
    after s = { s with status := { state := .halted, reason := .noInstruction } } := by decide

/-- O2: no instruction comes before REG_INDEX. -/
theorem test_zero_opcode_halts :
    let s := before 0 [] [] (rec4 0 99 99 99)
    after s = { s with status := { state := .halted, reason := .noInstruction } } := by decide

/-! ## Checks, reset, placing an instruction, the host's operations -/

/-- A10, O3, O4: REG_INDEX comes first, and reports the first bad field. -/
theorem test_reg_index_first :
    stopped (before 0 [] [] (rec4 1 99 36 2)) .regIndex 99 = true ∧
      stopped (before 0 [] [] (rec4 5 99 32 4096)) .regIndex 99 = true ∧
      after (before 0 [] [] (rec4 2 40 33 1)) = (before 0 [] [] (rec4 2 40 33 1)).fatal .regIndex 40 := by decide

/-- Z9 and the second step of Z6. -/
theorem test_pc_invalid :
    stopped { State.reset with pc := (-2147483648) } .pcInvalid (-2147483648) = true ∧
      stopped { State.reset with pc := 4096 } .pcInvalid 4096 = true := by decide

/-- R37 in the reference configuration. -/
theorem test_reset :
    State.reset.pc = 0 ∧ State.reset.sp = 4095 ∧ State.reset.lr = 0 ∧ State.reset.x 31 = 0 ∧
      State.reset.mem.read 4095 = rec4 0 0 0 0 ∧ State.reset.status = ⟨.running, .none, .none, 0⟩ := by decide

/-- A placed word is the next instruction: `B 0` from the table word 12. -/
theorem test_with_fetch_word :
    let s := State.reset.withFetchWord 32 12
    s.fetched = rec4 12 0 0 0 ∧ after s = s := by decide

/-- The numbers of R32. -/
theorem test_status_codes :
    [RunState.running, .halted, .fatal].map (RunState.code {}) = [0, 1, 2] ∧
      [HaltReason.none, .brZr, .noInstruction].map (HaltReason.code {}) = [0, 1, 2] ∧
      [Cause.none, .stackOverflow, .pcInvalid, .memBounds, .regIndex].map (Cause.code {}) = [0, 1, 2, 3, 4] := by decide

/-- M10: the event of an SP-relative load. -/
theorem test_event_of_ldur :
    (before 0 [] [(4095, rec4 77 0 0 0)] (rec4 5 3 33 0)).event =
      some
        { addr := 0, opcode := 5, op1 := 3, op2 := 33, op3 := 0, regs := [(3, 77), (33, 4095)],
          access := some (4095, true) } := by decide

/-- ADD, then BR XZR: the step that completes in RUNNING emits the one event of the run, the halt none. -/
theorem test_events_of_run :
    let h : Session := ⟨before 0 [] [(4, rec4 10 32 0 0)] (rec4 1 3 1 2), false⟩
    (h.runEvents 5).map Event.addr = [0] ∧ (h.run 5).status.state = .halted := by decide

/-- AS21: the load of an address outside memory is refused. -/
theorem test_load_refused :
    State.reset.load 5000 (rec4 12 0 0 0) = none ∧ State.reset.load (-1) (rec4 12 0 0 0) = none ∧
      (State.reset.load 4095 (rec4 12 0 0 0)).isSome = true := by decide

/-! ## The assembler -/

/-- parseLine in the reference configuration. -/
def parse (line : String) : Option (Int × Record) := Assembler.parseLine Config.reference line.toList

/-- AS1, the source's own line. -/
theorem test_as1 : parse "0 ADDI X1, XZR, #5" = some (0, rec4 2 1 32 5) := by decide

/-- AS6: brackets and cases. -/
theorem test_as6 : parse "24 STUR X2, [[xzr], #100]]" = some (24, rec4 6 2 32 100) := by decide

/-- AS9: a raw opcode that is none of the twelve takes operands. -/
theorem test_as9 : parse "12 0 20" = some (12, rec4 0 20 0 0) := by decide

/-- AS11: a number that is a reserved index, and a sign. -/
theorem test_as11 : parse "16 ADDI X1, X33, #-7" = some (16, rec4 2 1 33 (-7)) := by decide

/-- AS13: a misspelt mnemonic is opcode 0. -/
theorem test_as13 : parse "16 ADDD X1, X2, X3" = some (16, rec4 0 1 2 3) := by decide

/-- AS15 and AS16: a missing operand is 0, and a token beyond the arity is ignored. -/
theorem test_as15_as16 :
    parse "8 B" = some (8, rec4 12 0 0 0) ∧ parse "8 CBZ X1, 40 extra" = some (8, rec4 8 1 40 0) := by decide

/-- AS18: lower case. -/
theorem test_as18 : parse "8 br lr" = some (8, rec4 10 35 0 0) := by decide

/-- AS19 and AS20: malformed numbers are 0. -/
theorem test_as19_as20 :
    parse "8 ADDI X1, XZR, #abc" = some (8, rec4 2 1 32 0) ∧ parse "abc ADDI X1, XZR, #1" = some (0, rec4 2 1 32 1) := by
  decide

/-- AS22: a raw opcode number takes its instruction's arity. -/
theorem test_as22 : parse "8 2 1 32 5" = some (8, rec4 2 1 32 5) := by decide

/-- R78: a raw integer that is no 32-bit word is none of the twelve numbers, so three operands are read. -/
theorem test_raw_opcode_past_xlen :
    ((parse "8 4294967297 1 2 3").map fun p => [p.2.s1, p.2.s2, p.2.s3]) = some [1, 2, 3] ∧
      ((parse "8 -4294967288 1 2 3").map fun p => [p.2.s1, p.2.s2, p.2.s3]) = some [1, 2, 3] := by decide

/-- AS14: the later line of an address wins whole. -/
theorem test_as14 :
    (Assembler.bootText Config.reference ["8 ADD X1, X2, X3".toList, "8 B 40".toList]).mem.read 8 = rec4 12 40 0 0 := by
  decide

/-- F3 to F6. -/
theorem test_format_operand :
    Assembler.formatOperand Config.reference 31 = "X31".toList ∧
      Assembler.formatOperand Config.reference 32 = "XZR".toList ∧
      Assembler.formatOperand Config.reference 33 = "SP".toList ∧
      Assembler.formatOperand Config.reference 34 = "X34".toList ∧
      Assembler.formatOperand Config.reference 35 = "LR".toList := by decide

/-- The canonical line of a load, as R84 writes it. -/
theorem test_canonical_line :
    Assembler.canonicalLine Config.reference 36 (.ldur 35 33 (-8)) = "36 LDUR LR, [SP, #-8]".toList := by
  decide

/-! ## Witnesses: encoding -/

/-- Fields checked one by one. -/
theorem named_of_all {c : Config} {fields : List Word} (h : (fields.all fun f => decide (Named c f)) = true) :
    ∀ f ∈ fields, Named c f :=
  fun f hf => of_decide_eq_true (List.all_eq_true.mp h f hf)

/-- A configuration other than the reference one: another width, more registers, other indices, other opcode numbers and
other codes. -/
def otherConfig : Config :=
  { xlen := 16, ngpr := 40, idxZr := 43, idxSp := 42, idxPc := 41, idxLr := 40
    opc := { add := 12, b := 1, cbz := -3 }, codes := { halted := 7, fatal := 1 }
    memSize := 600, stackUpperBound := 500, stackSize := 0, startAddress := 599 }

theorem witness_otherConfig : otherConfig.valid := by decide

/-- The reserved indices follow NGPR (R6): only the number of registers is given. -/
theorem test_index_defaults :
    let c : Config := { ngpr := 40, memSize := 600, stackUpperBound := 500, stackSize := 0, startAddress := 0 }
    c.reserved = [40, 41, 42, 43] ∧ c.nreg = 44 ∧ c.valid := by decide

/-- At XLEN = 16 (R8, R111, R117): 32767 + 1 is −32768, 1 << 15 is −32768 and 1 << 16 is 0. -/
theorem test_xlen_16 :
    let s : State := { State.resetWith otherConfig with gprs := 32767 :: 1 :: List.replicate 38 0 }
    let value (i : Instr) : Option Word := match exec i s with
      | .next t => some (t.x 2)
      | .fault _ => none
      | .refused _ => none
    value (.add 2 0 1) = some (-32768) ∧ value (.lsl 2 1 15) = some (-32768) ∧ value (.lsl 2 1 16) = some 0 := by decide

theorem witness_DecodeOfEncode :
    otherConfig.opc.valid ∧ Instr.encodable otherConfig.opc (.cbz 41 (-4)) = true ∧
      Instr.encodable otherConfig.opc (.noInstruction 8) = true ∧
      (∀ v ∈ otherConfig.opc.toList, isWord 5 v) ∧ Instr.fits 5 (.cbz 15 (-16)) = true ∧
      ¬ Instr.fits 5 (.cbz 16 0) = true := by decide

/-- The least and the greatest words of 8 bits. -/
theorem witness_PackedImage :
    1 ≤ 8 ∧ (rec4 127 (-128) 0 (-1)).fits 8 ∧ (rec4 127 (-128) 0 (-1)).packed 8 = 0xFF00807F := by decide

/-- Two records of each kind of unused slots that differ in them. -/
theorem witness_UnusedSlotsIgnored :
    Opcodes.lookup {} 8 = some .cbz ∧ rec4 8 1 40 0 ≠ rec4 8 1 40 99 ∧ Opcodes.lookup {} 10 = some .br ∧
      rec4 10 5 0 0 ≠ rec4 10 5 7 9 ∧ Opcodes.lookup {} 13 = none ∧ rec4 13 0 0 0 ≠ rec4 13 1 2 3 ∧
      (∀ m, Opcodes.lookup {} (rec4 8 1 40 0).s0 = some m →
        (rec4 8 1 40 0).s1 = (rec4 8 1 40 99).s1 ∧ (2 ≤ m.format.arity → (rec4 8 1 40 0).s2 = (rec4 8 1 40 99).s2) ∧
          (3 ≤ m.format.arity → (rec4 8 1 40 0).s3 = (rec4 8 1 40 99).s3)) := by
  refine ⟨by decide, by decide, by decide, by decide, by decide, by decide, ?_⟩
  intro m h
  have : m = .cbz := by
    have h' : Opcodes.lookup {} (rec4 8 1 40 0).s0 = some .cbz := by decide
    exact Option.some.inj (h.symm.trans h')
  subst this
  decide

theorem witness_UnrecognizedOpcodes :
    (decode {} (rec4 13 1 2 3) = .noInstruction 13 ∧ 12 < (rec4 13 1 2 3).s0) ∧
      (decode {} (rec4 0 1 2 3) = .noInstruction 0 ∧ (rec4 0 1 2 3).s0 ≤ 0) ∧
      (decode {} (rec4 12 1 2 3) = .b 1 ∧ ¬ 12 < (rec4 12 1 2 3).s0) := by decide

/-! ## Witnesses: the step -/

/-- Both ends of memory are valid addresses. -/
theorem witness_StepRunsTheDecodedInstruction :
    let s := before 4095 [] [] (rec4 2 1 32 1)
    let t := before 0 [] [] (rec4 2 1 32 1)
    (s.status.state = .running ∧ Inside s.config s.pc) ∧ t.status.state = .running ∧ Inside t.config t.pc := by
  decide

/-- The first address past memory and the last one before it are not. -/
theorem witness_InvalidPcStops :
    let s : State := { State.reset with pc := 4096 }
    let t : State := { State.reset with pc := (-1) }
    (s.status.state = .running ∧ ¬ Inside s.config s.pc) ∧ t.status.state = .running ∧
      ¬ Inside t.config t.pc := by
  decide

/-- Both terminal states. -/
theorem witness_TerminalStatesAbsorb :
    (State.reset.halt .brZr).status.state ≠ .running ∧ (State.reset.fatal .pcInvalid 7).status.state ≠ .running := by
  decide

/-- O1: pc is 5000. -/
theorem witness_OrderOfChecks_pc :
    let s : State := { State.reset with pc := 5000 }
    s.inv ∧ s.status.state = .running ∧ ¬ Inside s.config s.pc := by
  decide

/-- O2: no instruction, with slots that name no register. -/
theorem witness_OrderOfChecks_noInstruction :
    let s := before 0 [] [] (rec4 0 99 99 99)
    s.inv ∧ s.status.state = .running ∧ Inside s.config s.pc ∧ nextInstr s = .noInstruction 0 := by
  decide

/-- A10: two fields name no register. -/
theorem witness_OrderOfChecks_regIndex :
    let s := before 0 [] [] (rec4 1 99 36 2)
    s.inv ∧ s.status.state = .running ∧ Inside s.config s.pc ∧
      FirstUnnamed s.config (nextInstr s).regFields 99 := by
  refine ⟨by decide, by decide, ⟨by decide, by decide⟩, [], [36, 2], by decide, ?_, ?_⟩
  · simp
  · decide

/-- M4: the first address past memory. -/
theorem witness_OrderOfChecks_memBounds :
    let s := before 0 [] [] (rec4 5 3 32 4096)
    s.inv ∧ s.status.state = .running ∧ Inside s.config s.pc ∧
      (∀ f ∈ (nextInstr s).regFields, Named s.config f) ∧ accessAddress s (nextInstr s) = some 4096 ∧
      ¬ Inside s.config 4096 :=
  ⟨by decide, by decide, by decide, named_of_all (by decide), by decide, by decide⟩

/-- T5: the last address before memory. -/
theorem witness_OrderOfChecks_memBounds_below :
    let s := before 0 [] [] (rec4 6 2 1 (-1))
    s.inv ∧ (∀ f ∈ (nextInstr s).regFields, Named s.config f) ∧ accessAddress s (nextInstr s) = some (-1) ∧
      ¬ Inside s.config (-1) :=
  ⟨by decide, named_of_all (by decide), by decide, by decide⟩

/-- BR1. -/
theorem witness_OrderOfChecks_brHalt :
    let s := before 8 [] [] (rec4 10 32 0 0)
    s.inv ∧ s.status.state = .running ∧ Inside s.config s.pc ∧
      (∀ f ∈ (nextInstr s).regFields, Named s.config f) ∧ nextInstr s = .br 32 ∧
      (32 : Word).toNat = s.config.idxZr :=
  ⟨by decide, by decide, by decide, named_of_all (by decide), by decide, by decide⟩

/-- I3: one past the upper bound. -/
theorem witness_OrderOfChecks_stackOverflow :
    let s := before 0 [] [] (rec4 2 33 33 1)
    s.inv ∧ s.status.state = .running ∧ Inside s.config s.pc ∧
      (∀ f ∈ (nextInstr s).regFields, Named s.config f) ∧ overflowing s (nextInstr s) = some 4096 :=
  ⟨by decide, by decide, by decide, named_of_all (by decide), by decide⟩

/-- SI2: one past the lower bound. -/
theorem witness_OrderOfChecks_stackOverflow_below :
    let s := before 0 [] [] (rec4 4 33 33 1025)
    s.inv ∧ (∀ f ∈ (nextInstr s).regFields, Named s.config f) ∧ overflowing s (nextInstr s) = some 3070 :=
  ⟨by decide, named_of_all (by decide), by decide⟩

/-- I4: sp stays on its upper bound. -/
theorem witness_OrderOfChecks_noStop :
    let s := before 0 [] [] (rec4 2 33 33 0)
    s.inv ∧ (∀ f ∈ (nextInstr s).regFields, Named s.config f) ∧ accessAddress s (nextInstr s) = none ∧
      overflowing s (nextInstr s) = none :=
  ⟨by decide, named_of_all (by decide), by decide, by decide⟩

/-- SI1: sp reaches its lower bound. -/
theorem witness_OrderOfChecks_noStop_below :
    let s := before 0 [] [] (rec4 4 33 33 1024)
    s.inv ∧ (∀ f ∈ (nextInstr s).regFields, Named s.config f) ∧ overflowing s (nextInstr s) = none :=
  ⟨by decide, named_of_all (by decide), by decide⟩

/-- M9: a load at the last address. -/
theorem witness_OrderOfChecks_noStop_load :
    let s := before 0 [] [] (rec4 5 3 32 4095)
    s.inv ∧ (∀ f ∈ (nextInstr s).regFields, Named s.config f) ∧ accessAddress s (nextInstr s) = some 4095 ∧
      Inside s.config 4095 ∧ overflowing s (nextInstr s) = none :=
  ⟨by decide, named_of_all (by decide), by decide, by decide, by decide⟩

/-- A7, A8: 36 and −1 are the nearest values that name no register, each as the first bad field. -/
theorem witness_RegIndexExactly :
    let s := State.reset
    s.inv ∧ s.status.state = .running ∧ FirstUnnamed s.config (Instr.add 36 1 2).regFields 36 ∧
      FirstUnnamed s.config (Instr.add 35 0 (-1)).regFields (-1) :=
  ⟨by decide, by decide, ⟨[], [1, 2], by decide, by simp, by decide⟩,
    [35, 0], [], by decide, named_of_all (by decide), by decide⟩

/-- A step without a fetch. -/
theorem witness_EventOfAStep_noFetch :
    let s : State := { State.reset with pc := 4096 }
    s.inv ∧ ¬ Fetches s := ⟨by decide, by decide⟩

/-- A step that halts, and one that completes with a memory access. -/
theorem witness_EventOfAStep :
    let s := before 8 [] [] (rec4 10 32 0 0)
    let t := before 8 [(2, 5)] [] (rec4 6 2 33 0)
    (s.inv ∧ Fetches s ∧ (after s).status.state = .halted) ∧
      t.inv ∧ Fetches t ∧ (after t).status.state = .running :=
  ⟨⟨by decide, by decide, by decide⟩, by decide, by decide, by decide⟩

/-! ## Witnesses: the instructions, each with all its fields naming registers and with one that does not -/

/-- A state in the middle of a run, under a configuration that is not the reference one. -/
def midRun : State :=
  { State.resetWith otherConfig with
    gprs := 7 :: (-2) :: List.replicate 38 3
    sp := 500
    pc := 40
    lr := 12
    mem := [(8, rec4 1 2 3 4), (40, rec4 2 0 0 1)] }

theorem witness_midRun : midRun.inv ∧ midRun.status.state = .running := by decide

/-- The least and the greatest register number, and the first past it. -/
theorem witness_Named :
    Named midRun.config 0 ∧ Named midRun.config 43 ∧ ¬ Named midRun.config 44 ∧
      ¬ Named midRun.config (-1) := by
  decide

/-- ADD and SUB: three fields, the last of them bad. -/
theorem witness_AddRule_SubRule :
    midRun.inv ∧ (∀ f ∈ [43, 41, 0], Named midRun.config f) ∧
      FirstUnnamed midRun.config [0, 43, 44] 44 := by
  exact ⟨by decide, named_of_all (by decide), [0, 43], [], by decide, named_of_all (by decide), by decide⟩

/-- ADDI: on the bound, and one past it. -/
theorem witness_AddiRule :
    midRun.inv ∧ (∀ f ∈ [1, 42], Named midRun.config f) ∧ FirstUnnamed midRun.config [44, 42] 44 ∧
      (42 : Word).toNat = midRun.config.idxSp ∧
      (midRun.config.stackUpperBound : Int) < plus midRun (midRun.x (42 : Word).toNat) 1 ∧
      ¬ (midRun.config.stackUpperBound : Int) < plus midRun (midRun.x (42 : Word).toNat) 0 := by
  refine ⟨by decide, named_of_all (by decide), ⟨[], [42], by decide, by simp, by decide⟩, ?_⟩
  decide

/-- SUBI: on the bound, and one past it. -/
theorem witness_SubiRule :
    midRun.inv ∧ (∀ f ∈ [1, 42], Named midRun.config f) ∧ FirstUnnamed midRun.config [1, 44] 44 ∧
      (42 : Word).toNat = midRun.config.idxSp ∧
      minus midRun (midRun.x (42 : Word).toNat) 1 < (midRun.config.stackUpperBound : Int) - midRun.config.stackSize ∧
      ¬ minus midRun (midRun.x (42 : Word).toNat) 0 < (midRun.config.stackUpperBound : Int) - midRun.config.stackSize := by
  refine ⟨by decide, named_of_all (by decide),
    ⟨[1], [], by decide, named_of_all (by decide), by decide⟩, ?_⟩
  decide

/-- LSL: the last amount that shifts and the first that gives 0. -/
theorem witness_LslRule :
    midRun.inv ∧ (∀ f ∈ [43, 0], Named midRun.config f) ∧ FirstUnnamed midRun.config [(-1), 0] (-1) ∧
      (31 : Word).toNat < 32 ∧ ¬ (32 : Word).toNat < 32 := by
  refine ⟨by decide, named_of_all (by decide), ⟨[], [0], by decide, by simp, by decide⟩, ?_⟩
  decide

/-- LDUR and STUR: the last address of memory and the first past it. -/
theorem witness_LdurRule_SturRule :
    midRun.inv ∧ (∀ f ∈ [0, 43], Named midRun.config f) ∧ FirstUnnamed midRun.config [0, 44] 44 ∧
      Inside midRun.config (plus midRun (midRun.x (43 : Word).toNat) 599) ∧
      ¬ Inside midRun.config (plus midRun (midRun.x (43 : Word).toNat) 600) := by
  refine ⟨by decide, named_of_all (by decide),
    ⟨[0], [], by decide, named_of_all (by decide), by decide⟩, ?_⟩
  decide

/-- CBZ and CBNZ: a register that is 0 and one that is not. -/
theorem witness_CbzRule_CbnzRule :
    midRun.inv ∧ (∀ f ∈ [43], Named midRun.config f) ∧ FirstUnnamed midRun.config [44] 44 ∧
      midRun.x (43 : Word).toNat = 0 ∧ midRun.x (1 : Word).toNat ≠ 0 := by
  refine ⟨by decide, named_of_all (by decide), ⟨[], [], by decide, by simp, by decide⟩, ?_⟩
  decide

/-- BR: the zero register and another. -/
theorem witness_BrRule :
    midRun.inv ∧ (∀ f ∈ [43], Named midRun.config f) ∧ FirstUnnamed midRun.config [44] 44 ∧
      (43 : Word).toNat = midRun.config.idxZr ∧ (40 : Word).toNat ≠ midRun.config.idxZr := by
  refine ⟨by decide, named_of_all (by decide), ⟨[], [], by decide, by simp, by decide⟩, ?_⟩
  decide

/-- BL and B have no register field: an invalid target is no hypothesis of theirs. -/
theorem witness_BlRule_BRule : midRun.inv ∧ ∀ f ∈ ([] : List Word), Named midRun.config f := by
  refine ⟨by decide, by simp⟩

theorem witness_NoInstructionRule :
    (rec4 0 44 44 44).s0 ∉ midRun.config.opc.toList ∧ (rec4 (-1) 1 2 3).s0 ∉ midRun.config.opc.toList := by decide

/-! ## Witnesses: registers -/

/-- ADDI XZR, X0. -/
theorem witness_ZeroDestinationMovesOnlyPc :
    let i : Instr := .addi 43 0 5
    midRun.inv ∧ midRun.status.state = .running ∧ destination i = some 43 ∧
      (43 : Word).toNat = midRun.config.idxZr ∧ (∀ f ∈ i.regFields, Named midRun.config f) ∧
      accessAddress midRun i = none ∧ overflowing midRun i = none :=
  ⟨by decide, by decide, by decide, by decide, named_of_all (by decide), by decide, by decide⟩

/-- LDUR XZR at the last address. -/
theorem witness_ZeroDestinationMovesOnlyPc_load :
    let i : Instr := .ldur 43 43 599
    destination i = some 43 ∧ (∀ f ∈ i.regFields, Named midRun.config f) ∧
      accessAddress midRun i = some 599 ∧ Inside midRun.config 599 ∧ overflowing midRun i = none :=
  ⟨by decide, named_of_all (by decide), by decide, by decide, by decide⟩

theorem witness_ProgramCounterDestination :
    midRun.inv ∧ Named midRun.config 0 ∧ Named midRun.config 41 ∧
      Inside midRun.config (plus midRun (midRun.x (0 : Word).toNat) 1) := by
  decide

/-- A step that changes a destination, and a BL that changes lr. -/
theorem witness_OnlyDestinationsChange :
    let s := before 8 [(2, 5)] [] (rec4 2 1 2 3)
    let t := before 8 [] [] (rec4 11 20 0 0)
    (s.inv ∧ 1 < s.config.nreg ∧ 1 ≠ s.config.idxPc ∧ (after s).x 1 ≠ s.x 1) ∧
      t.inv ∧ 35 < t.config.nreg ∧ 35 ≠ t.config.idxPc ∧ (after t).x 35 ≠ t.x 35 :=
  ⟨⟨by decide, by decide⟩, by decide, by decide⟩

/-- The step of each state in these witnesses has the next state that `after` gives. -/
theorem witness_step_answers :
    step (before 8 [(2, 5)] [] (rec4 2 1 2 3)) = .next (after (before 8 [(2, 5)] [] (rec4 2 1 2 3))) ∧
      step (before 8 [] [] (rec4 11 20 0 0)) = .next (after (before 8 [] [] (rec4 11 20 0 0))) ∧
      step (before 8 [(2, 5)] [(100, rec4 1 2 3 4)] (rec4 6 2 32 100)) =
        .next (after (before 8 [(2, 5)] [(100, rec4 1 2 3 4)] (rec4 6 2 32 100))) :=
  ⟨rfl, rfl, rfl⟩

/-- pc at the last address. -/
theorem witness_PcPlusWidthNeverWraps :
    let s : State := { midRun with pc := 599 }
    s.inv ∧ Inside s.config s.pc := by
  decide

/-- A sum that wraps, as its unsigned reading (R111). -/
theorem witness_ArithmeticWraps :
    1 ≤ 8 ∧ Alu.add 8 127 1 = -128 ∧ Alu.sub 8 (-128) 1 = 127 ∧ unsigned 8 (-128) = 128 := by decide

/-- Both sides of the amount's bound. -/
theorem witness_ShiftMovesBits :
    1 ≤ 32 ∧ (31 < 32 ∧ (unsigned 32 (Alu.shiftLeft 32 1 31)).testBit 31 = true) ∧ 32 ≤ unsigned 32 32 ∧
      32 ≤ unsigned 32 (-1) ∧ ¬ 32 ≤ unsigned 32 31 := by decide

/-! ## Witnesses: memory -/

/-- A store changes a record whose slots 1 to 3 are not zero; that the step answers so is witness_step_answers. -/
theorem witness_StepsKeepSlotsOneToThree_OnlyStoresChangeMemory :
    let s := before 8 [(2, 5)] [(100, rec4 1 2 3 4)] (rec4 6 2 32 100)
    s.inv ∧ (after s).mem.read 100 ≠ s.mem.read 100 ∧ (after s).mem.read 100 = rec4 5 2 3 4 := by decide

theorem witness_LoadAfterStore :
    midRun.inv ∧ Named midRun.config 0 ∧ Named midRun.config 42 ∧ Named midRun.config 1 ∧
      (42 : Word).toNat ≠ midRun.config.idxPc ∧ (1 : Word).toNat ≠ midRun.config.idxPc ∧
      (1 : Word).toNat ≠ midRun.config.idxZr ∧ Inside midRun.config (plus midRun (midRun.x (42 : Word).toNat) (-1)) :=
  ⟨by decide, by decide, by decide, by decide, by decide, by decide, by decide, by decide⟩

theorem witness_FetchAfterStore :
    midRun.inv ∧ midRun.status.state = .running ∧ Named midRun.config 0 ∧ Named midRun.config 43 ∧
      plus midRun (midRun.x (43 : Word).toNat) 44 = plus midRun midRun.pc 4 ∧
      Inside midRun.config (plus midRun midRun.pc 4) :=
  ⟨by decide, by decide, by decide, by decide, by decide, by decide⟩

/-! ## Witnesses: control transfer and the stack -/

/-- An invalid target, and a valid one that holds no instruction; a zero and a nonzero register. -/
theorem witness_TargetsAreCheckedAtTheNextFetch :
    midRun.inv ∧ midRun.status.state = .running ∧ Named midRun.config 43 ∧ Named midRun.config 1 ∧
      midRun.x (43 : Word).toNat = 0 ∧ midRun.x (1 : Word).toNat ≠ 0 ∧ (1 : Word).toNat ≠ midRun.config.idxZr ∧
      ¬ Inside midRun.config 600 ∧ ¬ Inside midRun.config (-1) ∧
      Inside midRun.config 599 ∧
      midRun.config.opc.lookup (midRun.mem.read (599 : Word).toNat).s0 = none :=
  ⟨by decide, by decide, by decide, by decide, by decide, by decide, by decide, by decide, by decide, by decide,
    by decide⟩

theorem witness_BranchToSelfRunsForever :
    let s := before 4095 [] [] (rec4 12 4095 0 0)
    Fetches s ∧ nextInstr s = .b s.pc := by
  decide

/-- Moves checked one by one. -/
theorem smallMoves_of_all {c : Config} {ms : List (Bool × Word)}
    (h : (ms.all fun m => decide (SmallMove c m.2)) = true) : ∀ m ∈ ms, SmallMove c m.2 :=
  fun m hm => of_decide_eq_true (List.all_eq_true.mp h m hm)

/-- sp at the upper bound; a sequence that stays inside, down to the lower bound and back. -/
theorem witness_StackDiscipline_inside :
    let s := State.reset
    let ms : List (Bool × Word) := [(false, 1024), (true, 1024)]
    s.inv ∧ s.status.state = .running ∧ InStack s.config s.sp ∧ (∀ m ∈ ms, SmallMove s.config m.2) ∧
      (runMoves s ms).status.state = .running :=
  ⟨by decide, by decide, by decide, smallMoves_of_all (by decide), by decide⟩

/-- One that leaves. -/
theorem witness_StackDiscipline_leaving :
    let s := State.reset
    let ms : List (Bool × Word) := [(false, 1), (true, 2)]
    (∀ m ∈ ms, SmallMove s.config m.2) ∧ movedTo s.sp ms = 4096 ∧ (runMoves s ms).status.state = .fatal :=
  ⟨smallMoves_of_all (by decide), by decide, by decide⟩

/-! ## Witnesses: invariants, reset, loads, text -/

theorem witness_StepsKeepTheInvariant_ConfigurationNeverChanges :
    (before 8 [(2, 5)] [(100, rec4 1 2 3 4)] (rec4 6 2 32 100)).inv := by decide

theorem witness_valid_configurations : Config.reference.valid ∧ otherConfig.valid := by decide

/-- A state that is not a reset state, with a valid configuration. -/
theorem witness_ResetRule :
    (midRun.fatal .pcInvalid 7).config.valid ∧ midRun.fatal .pcInvalid 7 ≠ State.resetWith otherConfig := by decide

/-- Both ends of memory, and one past each. -/
theorem witness_LoadRule :
    midRun.inv ∧ Inside midRun.config 0 ∧ Inside midRun.config 599 ∧ ¬ Inside midRun.config 600 ∧
      ¬ Inside midRun.config (-1) := by
  decide

/-- An address loaded twice, and one that no line loads. -/
theorem witness_LastLoadWins :
    let lines : List (Int × Record) := [(8, rec4 1 1 2 3), (8, rec4 12 40 0 0), (600, rec4 1 1 1 1)]
    otherConfig.valid ∧ 8 < otherConfig.memSize ∧ 599 < otherConfig.memSize ∧
      (lines.reverse.find? fun line => line.1 == (8 : Int)) = some (8, rec4 12 40 0 0) ∧
      (lines.reverse.find? fun line => line.1 == (599 : Int)) = none := by decide

theorem witness_LoadsCommute : midRun.inv ∧ (8 : Int) ≠ 9 := by decide

/-- The name of the pc's index, which has no name of its own, among the indices. -/
theorem witness_ResolveOfFormat : otherConfig.valid ∧ 41 < otherConfig.nreg ∧ 43 < otherConfig.nreg := by decide

theorem witness_CanonicalLineAssembles :
    otherConfig.valid ∧ (Instr.stur 43 41 (-32768)).wf otherConfig = true ∧
      (Instr.noInstruction (-7)).wf otherConfig = true := by decide

/-- Each clause of ArityRule: a mnemonic; a raw integer that is one of the twelve numbers, one that is none of them, one
that is no word; a malformed token; each time with an operand that is a word. -/
theorem witness_ArityRule :
    Config.reference.valid ∧
      Assembler.tokens "8 CBZ X1 40".toList = ["8".toList, "CBZ".toList, "X1".toList, "40".toList] ∧
      Assembler.mnemonicNamed "CBZ".toList = some .cbz ∧
      (Assembler.mnemonicNamed "8".toList = none ∧
        Assembler.wholeInt "8".toList = some (Config.reference.opc.number .cbz)) ∧
      (Assembler.wholeInt "13".toList = some 13 ∧ 13 ∉ Config.reference.opc.toList ∧ isWord 32 13) ∧
      (Assembler.wholeInt "4294967297".toList = some 4294967297 ∧ 4294967297 ∉ Config.reference.opc.toList ∧
        ¬ isWord 32 4294967297) ∧
      (Assembler.mnemonicNamed "ADDD".toList = none ∧ Assembler.wholeInt "ADDD".toList = none) ∧
      isWord 32 (Assembler.resolve Config.reference "X1".toList) :=
  ⟨by decide, by decide, by decide, by decide, by decide, by decide, by decide, by decide⟩

/-- A line with an operand that is no word assembles too. -/
theorem witness_AssembledRecordsAreWords :
    Config.reference.valid ∧ (parse "8 B 4294967296").isSome = true := by decide

/-- Every load of an image of words. -/
theorem witness_RunsKeepTheInvariant :
    otherConfig.valid ∧ (rec4 1 (-32768) 32767 0).fits otherConfig.xlen := by decide

/-- Both ends of the 8-bit range, and the first number past each. -/
theorem witness_WordsOfEveryWidth :
    1 ≤ 8 ∧ (isWord 8 127 ∧ isWord 8 (-128)) ∧ (wrap 8 128 = -128 ∧ wrap 8 (-129) = 127) ∧
      unsigned 8 (-1) = 255 := by decide

/-- Codes other than the spec's. -/
theorem witness_StatusNumbersTellTheOutcome :
    otherConfig.codes.valid ∧
      Status.numbers otherConfig.codes { state := .fatal, cause := .regIndex, info := -1 } = (1, 0, 4, -1) := by decide

end Sys2Proof.Tests
end

section
/-! SUPPORT. What a step can do, said once: the check of the register fields, then one of the effects an instruction's rule
can have. -/

namespace Sys2Proof.Machine

open Sys2Proof.Claims

variable {s t : State} {i : Instr}

/-- The ways the rule of an instruction ends once its register fields have passed their check, each with the guard under
which it is reached (R113 to R140). -/
inductive Effect (s : State) (i : Instr) : State → Prop where
  /-- A register takes the result and pc advances (R97). -/
  | wrote {rd : Word} (v : Word) (hd : destination i = some rd)
      (ha : ∀ ea, accessAddress s i = some ea → Inside s.config ea) (ho : overflowing s i = none) :
      Effect s i (s.setReg rd v).advance
  /-- The result passes the bound of the stack: it is kept and pc is not advanced (R118). -/
  | overflowed {rd v : Word} (hd : destination i = some rd) (ho : overflowing s i = some v) :
      Effect s i ((s.setReg rd v).fatal .stackOverflow v)
  /-- The effective address of a load or a store is not valid (R154). -/
  | outOfBounds {ea : Word} (ha : accessAddress s i = some ea) (hn : ¬ Inside s.config ea) :
      Effect s i (s.fatal .memBounds ea)
  /-- A store to a valid address (R122). -/
  | stored {rt rn imm : Word} (hi : i = .stur rt rn imm) (ha : Inside s.config (s.effectiveAddress rn imm)) :
      Effect s i (s.store (s.effectiveAddress rn imm).toNat (s.reg rt)).advance
  /-- Only pc changes: a transfer taken or not taken (R131 to R135). -/
  | jumped (target : Word) (hd : destination i = none) : Effect s i (s.setPc target)
  /-- BL (R134). -/
  | linked {target : Word} (hi : i = .bl target) : Effect s i ((s.setLr s.nextPc).setPc target)
  /-- A normal halt (R133, R140). -/
  | halted (reason : HaltReason) (hd : destination i = none) : Effect s i (s.halt reason)

/-- An instruction that checks its result against the stack bound, its test being the statements' one (R118). -/
theorem Effect.of_advanceUnless {rd res : Word} {bad : Bool} (hd : destination i = some rd)
    (ha : accessAddress s i = none) (ho : overflowing s i = if bad = true then some res else none) :
    Effect s i ((s.setReg rd res).advanceUnless bad res) := by
  obtain ⟨rfl, he⟩ | ⟨rfl, he⟩ := (s.setReg rd res).advanceUnless_cases bad res
  · rw [he]
    exact .wrote res hd (by simp [ha]) ho
  · rw [he]
    exact .overflowed hd ho

/-- An instruction with an effective address stops on an invalid one and goes on with a valid one (R120). -/
theorem Effect.of_checkAddr {ea : Word} (ha : accessAddress s i = some ea) (ht : Inside s.config ea → Effect s i t) :
    Effect s i (s.checkAddr ea t) := by
  obtain ⟨hv, he⟩ | ⟨hv, he⟩ := s.checkAddr_cases ea t
  · rw [he]
    exact ht (validAddr_iff.mp hv)
  · rw [he]
    exact .outOfBounds ha fun hin => by simp [validAddr_iff.mpr hin] at hv

/-- Every instruction checks its register fields and then has one of the effects. -/
theorem exec_eq_checkRegs (i : Instr) (s : State) :
    ∃ t, exec i s = .next (s.checkRegs i.regFields t) ∧ Effect s i t := by
  cases i with
  | add rd rn rm => exact ⟨_, rfl, .wrote _ rfl nofun rfl⟩
  | addi rd rn imm => exact ⟨_, rfl, .of_advanceUnless rfl rfl (by simp [overflowing, State.reg, Alu.add])⟩
  | sub rd rn rm => exact ⟨_, rfl, .wrote _ rfl nofun rfl⟩
  | subi rd rn imm => exact ⟨_, rfl, .of_advanceUnless rfl rfl (by simp [overflowing, State.reg, Alu.sub])⟩
  | ldur rt rn imm =>
    exact ⟨_, rfl, .of_checkAddr rfl fun hin => .wrote _ rfl (fun ea he => Option.some.inj he ▸ hin) rfl⟩
  | stur rt rn imm => exact ⟨_, rfl, .of_checkAddr rfl fun hin => .stored rfl hin⟩
  | lsl rd rn imm => exact ⟨_, rfl, .wrote _ rfl nofun rfl⟩
  | cbz rt target =>
    refine ⟨_, rfl, ?_⟩
    split
    · exact .jumped target rfl
    · exact .jumped s.nextPc rfl
  | cbnz rt target =>
    refine ⟨_, rfl, ?_⟩
    split
    · exact .jumped s.nextPc rfl
    · exact .jumped target rfl
  | br rn =>
    refine ⟨_, rfl, ?_⟩
    split
    · exact .halted .brZr rfl
    · exact .jumped (s.reg rn) rfl
  | bl target => exact ⟨_, rfl, .linked rfl⟩
  | b target => exact ⟨_, rfl, .jumped target rfl⟩
  | noInstruction opcode => exact ⟨_, rfl, .halted .noInstruction rfl⟩

/-- An instruction whose fields all name registers has one of the effects (R96). -/
theorem exec_of_named (h : ∀ w ∈ i.regFields, Named s.config w) : ∃ t, exec i s = .next t ∧ Effect s i t := by
  obtain ⟨t, he, ht⟩ := exec_eq_checkRegs i s
  rw [State.checkRegs_ok fun w hw => Config.isReg_iff.mpr (h w hw)] at he
  exact ⟨t, he, ht⟩

/-- All that an instruction can do: REG_INDEX with nothing else changed (R155), or one of the effects. -/
theorem exec_cases (h : exec i s = .next t) :
    (∃ bad ∈ i.regFields, ¬ Named s.config bad ∧ t = s.fatal .regIndex bad) ∨
      (∀ w ∈ i.regFields, Named s.config w) ∧ Effect s i t := by
  obtain ⟨u, he, hu⟩ := exec_eq_checkRegs i s
  obtain rfl : s.checkRegs i.regFields u = t := by simpa [he] using h
  obtain ⟨hr, hc⟩ | ⟨bad, hb, hr, hc⟩ := s.checkRegs_cases i.regFields u
  · rw [hc]
    exact .inr ⟨fun w hw => Config.isReg_iff.mp (hr w hw), hu⟩
  · exact .inl ⟨bad, hb, fun hn => by simp [Config.isReg_iff.mpr hn] at hr, hc⟩

/-- All that a step can do (R92): nothing, PC_INVALID, or the instruction fetched. -/
theorem step_cases (h : step s = .next t) :
    (s.status.state ≠ .running ∧ t = s) ∨
      (s.status.state = .running ∧ ¬ Inside s.config s.pc ∧ t = s.fatal .pcInvalid s.pc) ∨
      (Fetches s ∧ exec (nextInstr s) s = .next t) := by
  unfold step at h
  obtain ⟨hr, he⟩ | ⟨hr, hv, he⟩ | ⟨hr, hv, he⟩ := s.fetchDecode_cases <;> rw [he] at h
  · exact .inl ⟨hr, (Host.Outcome.next.inj h).symm⟩
  · refine .inr (.inl ⟨hr, fun hin => ?_, (Host.Outcome.next.inj h).symm⟩)
    simp [validAddr_iff.mpr hin] at hv
  · exact .inr (.inr ⟨⟨hr, validAddr_iff.mp hv⟩, h⟩)

/-- A step changes STATUS alone, or has the effect of the instruction it fetched. -/
theorem step_status_or_effect (h : step s = .next t) :
    (∃ st, t = { s with status := st }) ∨
      Fetches s ∧ (∀ w ∈ (nextInstr s).regFields, Named s.config w) ∧ Effect s (nextInstr s) t := by
  obtain ⟨-, rfl⟩ | ⟨-, -, rfl⟩ | ⟨hf, he⟩ := step_cases h
  · exact .inl ⟨_, rfl⟩
  · exact .inl ⟨_, rfl⟩
  · obtain ⟨bad, -, -, rfl⟩ | ⟨hn, he⟩ := exec_cases he
    · exact .inl ⟨_, rfl⟩
    · exact .inr ⟨hf, hn, he⟩

/-! ## What an effect leaves unchanged -/

/-- The destination is one of the fields that are checked (R27, R96). -/
theorem destination_mem_regFields {w : Word} (h : destination i = some w) : w ∈ i.regFields := by
  cases i <;> simp_all [destination, Instr.regFields]

/-- Every index but the destination reads as before the write. -/
theorem State.x_setReg_of_ne (h : s.inv) {w : Word} (hw : Named s.config w) (v : Word) {j : Nat} (hj : w.toNat ≠ j) :
    (s.setReg w v).x j = s.x j := by
  rw [State.x_setReg h (Config.isReg_iff.mpr hw), if_neg fun e => hj e.1.symm]

/-- Every index but IDX_PC reads as before a jump. -/
theorem State.x_setPc_of_ne (h : s.config.registersValid) (target : Word) {j : Nat} (hj : j ≠ s.config.idxPc) :
    (s.setPc target).x j = s.x j := by
  rw [State.x_setPc h, if_neg hj]

/-- Every index but IDX_PC reads as before an advance. -/
theorem State.x_advance_of_ne (h : s.config.registersValid) {j : Nat} (hj : j ≠ s.config.idxPc) :
    s.advance.x j = s.x j := State.x_setPc_of_ne h _ hj

/-- An effect changes no register but pc, the destination, and lr under BL (R25, R27). -/
theorem Effect.x_eq_or (h : s.inv) (hn : ∀ w ∈ i.regFields, Named s.config w) (he : Effect s i t) {j : Nat}
    (hj : j ≠ s.config.idxPc) :
    t.x j = s.x j ∨ (∃ w, destination i = some w ∧ w.toNat = j) ∨ (∃ target, i = .bl target) ∧ j = s.config.idxLr := by
  have hv : s.config.registersValid := h.1.1
  cases he with
  | @wrote rd v hd _ _ =>
    by_cases hw : rd.toNat = j
    · exact .inr (.inl ⟨rd, hd, hw⟩)
    · have hc : (s.setReg rd v).config = s.config := s.setReg_config rd v
      rw [State.x_advance_of_ne (hc ▸ hv) (hc ▸ hj),
        State.x_setReg_of_ne h (hn rd (destination_mem_regFields hd)) v hw]
      exact .inl rfl
  | @overflowed rd v hd _ =>
    by_cases hw : rd.toNat = j
    · exact .inr (.inl ⟨rd, hd, hw⟩)
    · rw [State.x_fatal, State.x_setReg_of_ne h (hn rd (destination_mem_regFields hd)) v hw]
      exact .inl rfl
  | outOfBounds _ _ => exact .inl (State.x_fatal ..)
  | @stored rt rn imm _ _ =>
    have hx := State.x_advance_of_ne (s := s.store (s.effectiveAddress rn imm).toNat (s.reg rt)) hv hj
    exact .inl (hx.trans (State.x_store ..))
  | jumped target _ => exact .inl (State.x_setPc_of_ne hv target hj)
  | @linked target hi =>
    by_cases hl : j = s.config.idxLr
    · exact .inr (.inr ⟨⟨target, hi⟩, hl⟩)
    · rw [State.x_setPc_of_ne (s := s.setLr s.nextPc) hv target hj, State.x_setLr hv, if_neg hl]
      exact .inl rfl
  | halted reason _ => exact .inl (State.x_halt ..)

/-- An effect leaves memory as it is, or is the store of a STUR (R45, R122). -/
theorem Effect.mem_cases (he : Effect s i t) :
    t.mem = s.mem ∨ ∃ rt rn imm, i = .stur rt rn imm ∧ Inside s.config (s.effectiveAddress rn imm) ∧
      t.mem = s.mem.storeSlot0 (s.effectiveAddress rn imm).toNat (s.reg rt) := by
  cases he with
  | stored hi ha => exact .inr ⟨_, _, _, hi, ha, rfl⟩
  | wrote v _ _ _ => exact .inl (State.setReg_mem ..)
  | overflowed _ _ => exact .inl (State.setReg_mem ..)
  | outOfBounds _ _ => exact .inl rfl
  | jumped target _ => exact .inl rfl
  | linked _ => exact .inl rfl
  | halted reason _ => exact .inl rfl

/-- An effect of an instruction with a destination that no check stops: the destination is written and pc advances. -/
theorem Effect.eq_advance_setReg {rd : Word} (he : Effect s i t) (hd : destination i = some rd)
    (ha : ∀ ea, accessAddress s i = some ea → Inside s.config ea) (ho : overflowing s i = none) :
    ∃ v, t = (s.setReg rd v).advance := by
  cases he with
  | wrote v hd' _ _ =>
    obtain rfl := Option.some.inj (hd.symm.trans hd')
    exact ⟨v, rfl⟩
  | overflowed _ ho' => cases ho.symm.trans ho'
  | outOfBounds ha' hn => exact absurd (ha _ ha') hn
  | stored hi _ => subst hi; cases hd
  | jumped _ hd' => cases hd.symm.trans hd'
  | linked hi => subst hi; cases hd
  | halted _ hd' => cases hd.symm.trans hd'

/-- A store keeps slots 1 to 3 of every record (R36, R122). -/
theorem Memory.read_storeSlot0_slots {m : Memory} (h : m.wf = true) (a : Nat) (v : Word) (b : Nat) :
    ((m.storeSlot0 a v).read b).s1 = (m.read b).s1 ∧ ((m.storeSlot0 a v).read b).s2 = (m.read b).s2 ∧
      ((m.storeSlot0 a v).read b).s3 = (m.read b).s3 := by
  rw [Memory.read_storeSlot0 h]
  split <;> exact ⟨rfl, rfl, rfl⟩

end Sys2Proof.Machine
end

section
/-! The statements about the state: the zero register, the destinations, slots 1 to 3 of memory, pc + WIDTH. -/

namespace Sys2Proof.Proofs

open Sys2Proof.Machine Sys2Proof.Claims

/-- Settles O31: a step that changes more than STATUS has the effect of the instruction it fetched. -/
theorem onlyDestinationsChange : Obligations.OnlyDestinationsChange := by
  intro s t j h hstep _ hj hne
  obtain ⟨st, rfl⟩ | ⟨hf, hn, he⟩ := step_status_or_effect hstep
  · exact absurd (State.x_congr rfl rfl rfl rfl rfl j) hne
  · exact ⟨hf, (he.x_eq_or h hn hj).resolve_left hne⟩

/-- Settles O35: the only write to memory is the store of a STUR, which goes to slot 0. -/
theorem stepsKeepSlotsOneToThree : Obligations.StepsKeepSlotsOneToThree := by
  intro s t a ⟨_, _, hm, _⟩ hstep
  obtain ⟨st, rfl⟩ | ⟨-, -, he⟩ := step_status_or_effect hstep
  · exact ⟨rfl, rfl, rfl⟩
  · obtain hmem | ⟨rt, rn, imm, -, -, hmem⟩ := he.mem_cases <;> rw [hmem]
    · exact ⟨rfl, rfl, rfl⟩
    · exact Memory.read_storeSlot0_slots hm _ _ a

/-- Settles O29: the write is discarded, and the advance remains. -/
theorem zeroDestinationMovesOnlyPc : Obligations.ZeroDestinationMovesOnlyPc := by
  intro s i rd _ _ hd hz hn ha ho
  obtain ⟨t, hexec, he⟩ := exec_of_named hn
  obtain ⟨v, rfl⟩ := he.eq_advance_setReg hd ha ho
  have hw : s.setReg rd v = s := by rw [State.setReg, hz, State.setX_idxZr]
  rw [hexec, hw]
  rfl

/-- Settles O28: by the bank of IDX_ZR. -/
theorem zeroRegister : Obligations.ZeroRegister := fun s v => ⟨State.x_idxZr s, State.setX_idxZr s v⟩

/-- Settles O32: R6 leaves room for MEMSIZE + WIDTH below 2^(XLEN-1). -/
theorem pcPlusWidthNeverWraps : Obligations.PcPlusWidthNeverWraps := by
  intro s h ⟨hlo, hhi⟩
  obtain ⟨⟨-, -, ⟨hroom, -⟩, -⟩, -⟩ := id h
  refine wrap_eq (State.one_le_xlen h) ?_
  unfold isWord
  omega

end Sys2Proof.Proofs
end

section
/-! SUPPORT. LDUR and STUR where every check passes, and the step that fetches: the rules the statements about memory
use. -/

namespace Sys2Proof.Machine

open Sys2Proof.Claims

variable {s : State}

/-- The checks of a load or a store pass on named registers and a valid address (R96, R120). -/
theorem State.checkRegs_checkAddr_ok {rt rn ea : Word} (ht : Named s.config rt) (hn : Named s.config rn)
    (ha : Inside s.config ea) (t : State) : s.checkRegs [rt, rn] (s.checkAddr ea t) = t := by
  rw [State.checkRegs_ok (by simpa [Config.isReg_iff] using ⟨ht, hn⟩), State.checkAddr,
    if_pos (validAddr_iff.mpr ha)]

/-- A STUR that no check stops stores and advances (R122). -/
theorem exec_stur_of_inside {rt rn imm : Word} (ht : Named s.config rt) (hn : Named s.config rn)
    (ha : Inside s.config (s.effectiveAddress rn imm)) :
    exec (.stur rt rn imm) s = .next (s.store (s.effectiveAddress rn imm).toNat (s.reg rt)).advance :=
  congrArg Host.Outcome.next (State.checkRegs_checkAddr_ok ht hn ha _)

/-- An LDUR that no check stops writes slot 0 of the record and advances (R121). -/
theorem exec_ldur_of_inside {rt rn imm : Word} (ht : Named s.config rt) (hn : Named s.config rn)
    (ha : Inside s.config (s.effectiveAddress rn imm)) :
    exec (.ldur rt rn imm) s = .next (s.setReg rt (s.mem.read (s.effectiveAddress rn imm).toNat).s0).advance :=
  congrArg Host.Outcome.next (State.checkRegs_checkAddr_ok ht hn ha _)

/-- A state that fetches steps by the instruction it fetches (R92). -/
theorem step_of_fetches (h : Fetches s) : step s = exec (nextInstr s) s := by
  obtain ⟨hr, hpc⟩ := h
  rw [step, State.fetchDecode, if_neg (not_not_intro hr), if_pos (validAddr_iff.mpr hpc)]
  rfl

/-- The record stored to, after the store: slot 0 is the value, the other slots are the old ones (R122). -/
theorem Memory.read_storeSlot0_self {m : Memory} (h : m.wf = true) (a : Nat) (v : Word) :
    (m.storeSlot0 a v).read a = { m.read a with s0 := v } := by
  rw [Memory.read_storeSlot0 h, if_pos rfl]

/-- Every other record reads as before the store (R122). -/
theorem Memory.read_storeSlot0_of_ne {m : Memory} (h : m.wf = true) {a b : Nat} (v : Word) (hb : b ≠ a) :
    (m.storeSlot0 a v).read b = m.read b := by
  rw [Memory.read_storeSlot0 h, if_neg hb]

/-- A store and the advance after it leave the effective address on any base but IDX_PC (R120, R122). -/
theorem State.effectiveAddress_advance_store (h : s.config.registersValid) (a : Nat) (v : Word) {rn : Word}
    (hn : rn.toNat ≠ s.config.idxPc) (imm : Word) :
    (s.store a v).advance.effectiveAddress rn imm = s.effectiveAddress rn imm := by
  have hx : (s.store a v).advance.x rn.toNat = s.x rn.toNat :=
    (State.x_advance_of_ne (s := s.store a v) h hn).trans (State.x_store ..)
  rw [State.effectiveAddress, State.reg, hx]
  rfl

/-- A destination other than the zero register and IDX_PC reads the value written, after the advance too (R9, R97). -/
theorem State.x_advance_setReg_self (h : s.inv) {rd : Word} (hd : Named s.config rd)
    (hpc : rd.toNat ≠ s.config.idxPc) (hz : rd.toNat ≠ s.config.idxZr) (v : Word) :
    (s.setReg rd v).advance.x rd.toNat = v := by
  have hc : (s.setReg rd v).config = s.config := s.setReg_config rd v
  rw [State.x_advance_of_ne (hc ▸ h.1.1) (hc ▸ hpc), State.x_setReg h (Config.isReg_iff.mpr hd), if_pos ⟨rfl, hz⟩]

end Sys2Proof.Machine
end

section
/-! The statements about memory: only a store changes it, and the next load and the next fetch see the value stored. -/

namespace Sys2Proof.Proofs

open Sys2Proof.Machine Sys2Proof.Claims

/-- Settles O36: memory changes only by the store of a fetched STUR, and that changes only its own record. -/
theorem onlyStoresChangeMemory : Obligations.OnlyStoresChangeMemory := by
  intro s t a ⟨_, _, hm, _⟩ hstep hne
  obtain ⟨st, rfl⟩ | ⟨hf, -, he⟩ := step_status_or_effect hstep
  · exact absurd rfl hne
  obtain hmem | ⟨rt, rn, imm, hi, hin, hmem⟩ := he.mem_cases <;> rw [hmem] at hne ⊢
  · exact absurd rfl hne
  obtain rfl : a = (s.effectiveAddress rn imm).toNat := by
    by_contra ha
    exact hne (Memory.read_storeSlot0_of_ne hm _ ha)
  refine ⟨hf, rt, rn, imm, hi, (Int.toNat_of_nonneg hin.1).symm, ?_⟩
  rw [Memory.read_storeSlot0_self hm]
  rfl

/-- Settles O37: the store keeps the base register, so the load reads the record just stored to. -/
theorem loadAfterStore : Obligations.LoadAfterStore := by
  intro s rt rn rd imm h ht hn hd hnpc hdpc hdz (hin : Inside s.config (s.effectiveAddress rn imm))
  obtain ⟨⟨hr, -⟩, -, hm, -⟩ := id h
  have hu : Inside s.config
      ((s.store (s.effectiveAddress rn imm).toNat (s.reg rt)).advance.effectiveAddress rn imm) := by
    rwa [State.effectiveAddress_advance_store hr _ _ hnpc]
  have hinv : (s.store (s.effectiveAddress rn imm).toNat (s.reg rt)).advance.inv :=
    State.inv_advance (State.inv_store h (validAddr_toNat (validAddr_iff.mpr hin)).1 (State.x_isWord h rt.toNat))
  refine ⟨_, _, exec_stur_of_inside ht hn hin, exec_ldur_of_inside hd hn hu, ?_⟩
  rw [State.x_advance_setReg_self hinv hd hdpc hdz, State.effectiveAddress_advance_store hr _ _ hnpc,
    State.advance_mem, State.store_mem, Memory.read_storeSlot0_self hm]
  rfl

/-- Settles O38: after the store the machine is running at pc + 4, so it fetches the record just stored to. -/
theorem fetchAfterStore : Obligations.FetchAfterStore := by
  intro s rt rn imm ⟨_, _, hm, _⟩ hrun ht hn (ha : s.effectiveAddress rn imm = s.nextPc)
    (hin : Inside s.config s.nextPc)
  refine ⟨_, exec_stur_of_inside ht hn (ha ▸ hin), ?_⟩
  rw [ha]
  have hf : Fetches (s.store s.nextPc.toNat (s.reg rt)).advance := ⟨hrun, hin⟩
  rw [step_of_fetches hf, nextInstr, State.advance_mem, State.store_mem, State.advance_pc]
  exact congrArg (fun r => exec (decode s.config.opc r) _) (Memory.read_storeSlot0_self hm _ _)

end Sys2Proof.Proofs
end

section
/-! SUPPORT. The encoder's record and the packed image: which opcode and which words the record holds, and that the image
at XLEN = n has the unsigned slots as its digits in base 2^n (R62). -/

namespace Sys2Proof

open Machine

/-- The only instruction without a mnemonic is no instruction (R140). -/
theorem Instr.mnemonic_eq_none {i : Instr} : i.mnemonic = none ↔ ∃ opcode, i = .noInstruction opcode := by
  cases i <;> simp [Instr.mnemonic]

/-- Slot 0 of the encoded record selects the instruction's own mnemonic (R72). -/
theorem lookup_encode {o : Opcodes} (ho : o.valid) {i : Instr} (hi : i.encodable o = true) :
    o.lookup (encode o i).s0 = i.mnemonic := by
  cases hm : i.mnemonic with
  | some m => rw [Laws.EncodesOpcode.of_mnemonic hm o ho hi, hm]
  | none =>
    obtain ⟨opcode, rfl⟩ := Instr.mnemonic_eq_none.mp hm
    exact Laws.EncodesOpcode.noInstruction opcode o ho hi

/-- Decoding an encoded instruction gives it back: the mnemonic is its own, and the encoder puts the operands into the
slots the decoder reads. -/
theorem decode_encode {o : Opcodes} (ho : o.valid) {i : Instr} (hi : i.encodable o = true) :
    decode o (encode o i) = i := by
  rw [decode, lookup_encode ho hi]
  cases i <;> rfl

/-- Every slot of the encoded record is an opcode number, an operand or the zero of an unused slot (R63 to R68). -/
theorem mem_of_encode_slot (o : Opcodes) (i : Instr) :
    ∀ v ∈ [(encode o i).s0, (encode o i).s1, (encode o i).s2, (encode o i).s3],
      v ∈ o.toList ∨ v ∈ i.operands ∨ v = 0 := by
  cases i <;> simp [encode, Opcodes.toList, Instr.operands]

/-- The encoded record of words is a record of words (R36). -/
theorem encode_fits {o : Opcodes} {i : Instr} {n : Nat} (ho : ∀ v ∈ o.toList, isWord n v) (hi : i.fits n = true) :
    (encode o i).fits n := by
  have hops : ∀ v ∈ i.operands, isWord n v := by
    simpa only [Instr.fits, List.all_eq_true, decide_eq_true_eq] using hi
  have hslot : ∀ v ∈ [(encode o i).s0, (encode o i).s1, (encode o i).s2, (encode o i).s3], isWord n v := by
    intro v hv
    obtain h | h | rfl := mem_of_encode_slot o i v hv
    · exact ho v h
    · exact hops v h
    · exact isWord_zero n
  simpa only [List.forall_mem_cons, List.not_mem_nil, false_imp_iff, implies_true, and_true] using hslot

/-! ## The packed image -/

/-- Dividing the packed image by 2^(n·k) leaves slot k as the lowest digit in base 2^n. -/
theorem Record.packed_div (n : Nat) (r : Record) :
    r.packed n / 2 ^ n = unsigned n r.s1 + 2 ^ n * (unsigned n r.s2 + 2 ^ n * unsigned n r.s3) ∧
      r.packed n / 2 ^ (2 * n) = unsigned n r.s2 + 2 ^ n * unsigned n r.s3 ∧
      r.packed n / 2 ^ (3 * n) = unsigned n r.s3 := by
  have hdigit (v : Word) (t : Nat) : (unsigned n v + 2 ^ n * t) / 2 ^ n = t := by
    rw [Nat.add_mul_div_left _ _ (Nat.two_pow_pos n), Nat.div_eq_of_lt (unsigned_lt n v), Nat.zero_add]
  have h2 : 2 ^ (2 * n) = 2 ^ n * 2 ^ n := by ring
  have h3 : 2 ^ (3 * n) = 2 ^ n * 2 ^ n * 2 ^ n := by ring
  simp only [h2, h3, ← Nat.div_div_eq_div_mul, Record.packed, hdigit, and_self]

/-- Slot k occupies bits n·k + n − 1 to n·k of the packed image (R62). -/
theorem Record.packed_digits (n : Nat) (r : Record) :
    r.packed n % 2 ^ n = unsigned n r.s0 ∧ r.packed n / 2 ^ n % 2 ^ n = unsigned n r.s1 ∧
      r.packed n / 2 ^ (2 * n) % 2 ^ n = unsigned n r.s2 ∧ r.packed n / 2 ^ (3 * n) % 2 ^ n = unsigned n r.s3 := by
  have hmod (v : Word) : unsigned n v % 2 ^ n = unsigned n v := Nat.mod_eq_of_lt (unsigned_lt n v)
  obtain ⟨h1, h2, h3⟩ := r.packed_div n
  rw [h1, h2, h3, Record.packed]
  simp only [Nat.add_mul_mod_self_left, hmod, and_self]

/-- The packed image is a number of 4·n bits (R62). -/
theorem Record.packed_lt (n : Nat) (r : Record) : r.packed n < 2 ^ (4 * n) := by
  obtain ⟨-, -, h3⟩ := r.packed_div n
  have h4 : 2 ^ (4 * n) = 2 ^ n * 2 ^ (3 * n) := by ring
  rw [h4, ← Nat.div_lt_iff_lt_mul (Nat.two_pow_pos _), h3]
  exact unsigned_lt n r.s3

/-- A number whose lowest digit in base 2^n is the unsigned reading of a word wraps to the word (R8). -/
theorem wrap_of_mod_eq_unsigned {n w : Nat} (hn : 1 ≤ n) {v : Word} (hv : isWord n v)
    (h : w % 2 ^ n = unsigned n v) : wrap n w = v := by
  calc
    wrap n w = wrap n (w % 2 ^ n : Nat) := wrap_congr (by rw [Int.natCast_mod]; exact Int.dvd_self_sub_emod)
    _ = v := by rw [h, wrap_unsigned hn hv]

/-- A record of words is read back from its packed image (R62). -/
theorem Record.ofNat_packed {n : Nat} (hn : 1 ≤ n) {r : Record} (hr : r.fits n) :
    Record.ofNat n (r.packed n) = r := by
  obtain ⟨h0, h1, h2, h3⟩ := hr
  obtain ⟨d0, d1, d2, d3⟩ := r.packed_digits n
  rw [Record.ofNat, wrap_of_mod_eq_unsigned hn h0 d0, wrap_of_mod_eq_unsigned hn h1 d1,
    wrap_of_mod_eq_unsigned hn h2 d2, wrap_of_mod_eq_unsigned hn h3 d3]

end Sys2Proof
end

section
/-! The statements about the encoding: the opcode map, the round trip, unused slots and the packed image. -/

namespace Sys2Proof.Proofs

/-- Settles O2: the encoded record has the instruction's opcode and operands, and a record of words is read back from its
packed image. -/
theorem decodeOfEncode : Obligations.DecodeOfEncode := by
  intro o i ho hi
  refine ⟨decode_encode ho hi, fun n hn hw hf => ?_⟩
  have hfits : (encode o i).fits n := encode_fits hw hf
  exact ⟨hfits, by rw [Record.ofNat_packed hn hfits, decode_encode ho hi]⟩

/-- Settles O4: the numbers of R71 are 1 to 12 without a gap, and no instruction is decoded from the others. -/
theorem unrecognizedOpcodes : Obligations.UnrecognizedOpcodes := by
  intro r w
  have hgap (v : Int) : v ∉ Opcodes.toList {} ↔ v ≤ 0 ∨ 12 < v := by
    change v ∉ ([1, 2, 3, 4, 5, 6, 7, 8, 9, 10, 11, 12] : List Int) ↔ _
    simp only [List.mem_cons, List.not_mem_nil, or_false, not_or]
    omega
  rw [decode_eq_noInstruction, Opcodes.lookup_eq_none, hgap]

/-- Settles O5: the decoder reads slot 0, and then as many operand slots as the format of the selected mnemonic uses. -/
theorem unusedSlotsIgnored : Obligations.UnusedSlotsIgnored := by
  intro o r q h0 hused
  unfold decode
  rw [← h0]
  cases hm : o.lookup r.s0 with
  | none => rfl
  | some m =>
    obtain ⟨h1, h2, h3⟩ := hused m hm
    cases m with
    | add | addi | sub | subi | ldur | stur | lsl => simp only [h1, h2 (by decide), h3 (by decide)]
    | cbz | cbnz => simp only [h1, h2 (by decide)]
    | br | bl | b => simp only [h1]

/-- Settles O1: each number is compared with the twelve of R71. -/
theorem opcodeMap : Obligations.OpcodeMap := by
  intro a b c
  and_intros <;> rfl

/-- Settles O6: the unsigned slots are the digits of the packed image in base 2^n. -/
theorem packedImage : Obligations.PackedImage := by
  intro n r hn hr
  obtain ⟨d0, d1, d2, d3⟩ := r.packed_digits n
  exact ⟨d0, d1, d2, d3, r.packed_lt n, Record.ofNat_packed hn hr⟩

/-- Settles O7: eight words of the reference configuration, evaluated. -/
theorem writtenOutWords : Obligations.WrittenOutWords := by
  unfold Obligations.WrittenOutWords
  decide

end Sys2Proof.Proofs
end

section
/-! SUPPORT. One rule for each check that can end a step (R93), the event of a step (R100), and runs and their events as
repeated steps (R99). -/

namespace Sys2Proof.Machine

open Sys2Proof.Claims

variable {s t : State} {i : Instr}

/-! ## Completion -/

theorem exec_completes (i : Instr) (s : State) : ∃ t, exec i s = .next t := by
  obtain ⟨t, he, -⟩ := exec_eq_checkRegs i s
  exact ⟨_, he⟩

theorem step_completes (s : State) : ∃ t, step s = .next t := by
  unfold step
  cases s.fetchDecode with
  | error t => exact ⟨t, rfl⟩
  | ok i => exact exec_completes i s

/-! ## The checks before the instruction -/

theorem State.fetchDecode_of_fetches (h : Fetches s) : s.fetchDecode = .ok (nextInstr s) := by
  rw [State.fetchDecode, if_neg (not_not_intro h.1), if_pos (validAddr_iff.mpr h.2)]
  rfl

theorem State.fetchDecode_of_not_fetches (h : ¬ Fetches s) : ∃ t, s.fetchDecode = .error t := by
  obtain ⟨-, he⟩ | ⟨-, -, he⟩ | ⟨hr, hv, -⟩ := s.fetchDecode_cases
  · exact ⟨_, he⟩
  · exact ⟨_, he⟩
  · exact absurd ⟨hr, validAddr_iff.mp hv⟩ h

/-- A terminal state steps to itself (R98). -/
theorem step_of_not_running (h : s.status.state ≠ .running) : step s = .next s := by
  rw [step, State.fetchDecode, if_pos h]

/-- A running machine with an invalid pc stops with PC_INVALID (R153). -/
theorem step_of_not_inside (hr : s.status.state = .running) (hpc : ¬ Inside s.config s.pc) :
    step s = .next (s.fatal .pcInvalid s.pc) := by
  rw [step, State.fetchDecode, if_neg (not_not_intro hr), if_neg (mt validAddr_iff.mp hpc)]

/-! ## The checks of the instruction -/

/-- Fields that all name registers pass the register-index check (R96). -/
theorem State.checkRegs_of_named {fields : List Word} (h : ∀ w ∈ fields, Named s.config w) (t : State) :
    s.checkRegs fields t = t := State.checkRegs_ok (fun w hw => Config.isReg_iff.mpr (h w hw)) t

/-- The register-index check stops an instruction at its first field that names no register (R96, R155). -/
theorem exec_of_firstUnnamed {bad : Word} (h : FirstUnnamed s.config i.regFields bad) :
    exec i s = .next (s.fatal .regIndex bad) := by
  obtain ⟨before, after, hf, hn, hb⟩ := h
  obtain ⟨t, he, -⟩ := exec_eq_checkRegs i s
  rw [he, hf, State.checkRegs_bad (fun w hw => Config.isReg_iff.mpr (hn w hw))
    (Bool.eq_false_iff.mpr (mt Config.isReg_iff.mp hb))]

/-- An invalid effective address stops a load or a store (R120, R154). -/
theorem exec_of_not_inside {ea : Word} (hn : ∀ w ∈ i.regFields, Named s.config w) (ha : accessAddress s i = some ea)
    (hout : ¬ Inside s.config ea) : exec i s = .next (s.fatal .memBounds ea) := by
  cases i with
  | ldur rt rn imm | stur rt rn imm =>
    obtain rfl := Option.some.inj ha
    exact congrArg Host.Outcome.next ((State.checkRegs_of_named hn _).trans (if_neg (mt validAddr_iff.mp hout)))
  | _ => cases ha

/-- BR halts on the field IDX_ZR (R133). -/
theorem exec_br_idxZr {rn : Word} (hn : ∀ w ∈ (Instr.br rn).regFields, Named s.config w)
    (hz : rn.toNat = s.config.idxZr) : exec (.br rn) s = .next (s.halt .brZr) :=
  congrArg Host.Outcome.next ((State.checkRegs_of_named hn _).trans (if_pos (fieldIs_iff.mpr hz)))

/-- What passes a stack bound is written by an instruction with a destination and no effective address (R118). -/
theorem exists_destination_of_overflowing {res : Word} (h : overflowing s i = some res) :
    (∃ rd, destination i = some rd) ∧ accessAddress s i = none := by
  cases i with
  | addi rd _ _ | subi rd _ _ => exact ⟨⟨rd, rfl⟩, rfl⟩
  | _ => cases h

/-- A result that passes the stack bound stops the ADDI or SUBI after its write (R118). -/
theorem exec_of_overflowing {res : Word} (hn : ∀ w ∈ i.regFields, Named s.config w)
    (ho : overflowing s i = some res) :
    ∃ rd, exec i s = .next ((s.setReg rd res).fatal .stackOverflow res) := by
  obtain ⟨⟨rd, hd⟩, ha⟩ := exists_destination_of_overflowing ho
  obtain ⟨t, he, ht⟩ := exec_of_named hn
  cases ht with
  | overflowed _ ho' =>
    obtain rfl := Option.some.inj (ho.symm.trans ho')
    exact ⟨_, he⟩
  | wrote _ _ _ ho' => cases ho.symm.trans ho'
  | outOfBounds ha' _ => cases ha.symm.trans ha'
  | stored hi _ => subst hi; cases hd
  | jumped _ hd' => cases hd.symm.trans hd'
  | linked hi => subst hi; cases hd
  | halted _ hd' => cases hd.symm.trans hd'

/-- An instruction that no check stops leaves STATUS as it is (R93). -/
theorem exec_keeps_status (hi : ¬ ∃ w, i = .noInstruction w) (hn : ∀ w ∈ i.regFields, Named s.config w)
    (ha : ∀ ea, accessAddress s i = some ea → Inside s.config ea)
    (hb : ∀ rn, i = .br rn → rn.toNat ≠ s.config.idxZr) (ho : overflowing s i = none) :
    ∃ t, exec i s = .next t ∧ t.status = s.status := by
  cases i with
  | add | addi | sub | subi | ldur | lsl =>
    obtain ⟨t, he, ht⟩ := exec_of_named hn
    obtain ⟨v, rfl⟩ := ht.eq_advance_setReg rfl ha ho
    exact ⟨_, he, State.setReg_status ..⟩
  | stur rt rn imm =>
    obtain ⟨ht, hr⟩ := List.forall_mem_cons.mp hn
    exact ⟨_, exec_stur_of_inside ht (List.forall_mem_singleton.mp hr) (ha _ rfl), rfl⟩
  | cbz rt target | cbnz rt target =>
    refine ⟨_, congrArg Host.Outcome.next (State.checkRegs_of_named hn _), ?_⟩
    split <;> rfl
  | br rn =>
    exact ⟨_, congrArg Host.Outcome.next ((State.checkRegs_of_named hn _).trans (if_neg (mt fieldIs_iff.mp (hb rn rfl)))), rfl⟩
  | bl target | b target => exact ⟨_, rfl, rfl⟩
  | noInstruction w => exact absurd ⟨w, rfl⟩ hi

/-! ## STATUS of a running machine -/

/-- While the machine runs every field of STATUS has its reset value (R32). -/
theorem Status.eq_of_running {st : Status} (h : st.coherent) (hr : st.state = .running) : st = {} := by
  obtain ⟨hreason, hcause, hinfo⟩ := h
  obtain ⟨state, reason, cause, info⟩ := st
  simp_all

/-! ## IDX_PC as a destination -/

/-- A write to IDX_PC is a write to pc (R26). -/
theorem State.setX_idxPc (h : s.config.registersValid) (v : Word) : s.setX s.config.idxPc v = s.setPc v := by
  simp only [State.setX, Config.bank_idxPc h]
  rfl

theorem State.jumped_setPc (h : s.config.registersValid) (target : Word) : Jumped s (s.setPc target) target :=
  ⟨⟨rfl, rfl⟩, fun _ => rfl, fun j _ => State.x_setPc h target j⟩

/-- A write to IDX_PC and the advance after it are a jump to 4 past the value written (R97). -/
theorem State.jumped_advance_setReg_idxPc (h : s.config.registersValid) (v : Word) :
    Jumped s (s.setReg (s.config.idxPc : Int) v).advance (plus s v 4) := by
  rw [State.setReg, Int.toNat_natCast, State.setX_idxPc h]
  exact State.jumped_setPc h (plus s v 4)

/-- IDX_PC, as a field, names a register (R21). -/
theorem named_idxPc {c : Config} (h : c.registersValid) : Named c (c.idxPc : Int) := by
  obtain ⟨-, -, hr, -⟩ := h
  exact Config.isReg_iff.mp (Config.isReg_cast (hr c.idxPc (by simp)).2)

/-! ## The event of a step -/

theorem State.event_of_not_fetches (h : ¬ Fetches s) : s.event = none := by
  obtain ⟨t, ht⟩ := State.fetchDecode_of_not_fetches h
  rw [State.event, ht]

theorem State.event_of_fetches (h : Fetches s) (he : exec (nextInstr s) s = .next t) :
    s.event = if t.status.state = .running then some (s.eventBetween t (nextInstr s)) else none := by
  simp only [State.event, State.fetchDecode_of_fetches h, he]

theorem State.event_of_not_running (h : s.status.state ≠ .running) : s.event = none :=
  State.event_of_not_fetches fun hf => h hf.1

/-! ## Runs -/

theorem State.runFor_of_not_running (h : s.status.state ≠ .running) (n : Nat) : s.runFor n = s := by
  cases n with
  | zero => rfl
  | succ n => rw [State.runFor, if_neg h]

theorem State.eventsFor_of_not_running (h : s.status.state ≠ .running) (n : Nat) : s.eventsFor n = [] := by
  cases n with
  | zero => rfl
  | succ n => rw [State.eventsFor, if_neg h]

/-- A run goes on from the next state, in a terminal state too, where that is the same state (R98, R99). -/
theorem State.runFor_succ (h : step s = .next t) (n : Nat) : s.runFor (n + 1) = t.runFor n := by
  by_cases hr : s.status.state = .running
  · simp only [State.runFor, if_pos hr, h]
  · obtain rfl : s = t := Host.Outcome.next.inj ((step_of_not_running hr).symm.trans h)
    rw [State.runFor_of_not_running hr, State.runFor_of_not_running hr]

/-- The events of a run are those of its first step and then those of the run from the next state (R99, R100). -/
theorem State.eventsFor_succ (h : step s = .next t) (n : Nat) :
    s.eventsFor (n + 1) = s.event.toList ++ t.eventsFor n := by
  by_cases hr : s.status.state = .running
  · simp only [State.eventsFor, if_pos hr, h]
  · obtain rfl : s = t := Host.Outcome.next.inj ((step_of_not_running hr).symm.trans h)
    rw [State.eventsFor_of_not_running hr, State.eventsFor_of_not_running hr, State.event_of_not_running hr]
    rfl

theorem Session.step_eq {h : Session} (ht : Machine.step h.machine = .next t) :
    h.step = (⟨t, true⟩, h.machine.event) := by
  simp only [Session.step, ht]

end Sys2Proof.Machine
end

section
/-! The statements about fetch, decode and execute: the step and its checks in their order, terminal states, the event of a
step, IDX_PC as a destination, and runs. -/

namespace Sys2Proof.Proofs

open Sys2Proof.Machine Sys2Proof.Claims

/-- Settles O11: steps 0 to 3 end in a state or an instruction, and every instruction's rule ends in a state. -/
theorem stepAlwaysCompletes : Obligations.StepAlwaysCompletes := step_completes

/-- Settles O12: each check has its rule, and STATUS is at its reset values while the machine runs. -/
theorem orderOfChecks : Obligations.OrderOfChecks := by
  intro s ⟨_, _, _, _, hcoh, _⟩ hrun
  have hst : s.status = {} := Status.eq_of_running hcoh hrun
  obtain ⟨t, ht⟩ := step_completes s
  refine ⟨t, ht, fun hpc => ?_, fun hpc => ?_⟩
  · obtain rfl := Host.Outcome.next.inj ((step_of_not_inside hrun hpc).symm.trans ht)
    rw [State.fatal_status, hst]
  rw [step_of_fetches ⟨hrun, hpc⟩] at ht
  generalize nextInstr s = i at ht ⊢
  have hend {u : State} (hu : exec i s = .next u) : t.status = u.status := by
    rw [Host.Outcome.next.inj (ht.symm.trans hu)]
  refine ⟨?noInstruction, fun hi => ⟨fun bad hbad => ?regIndex, fun hn =>
    ⟨fun ea ha hout => ?memBounds, ?brZr, fun res ho => ?stackOverflow, fun ha hb ho => ?unchanged⟩⟩⟩
  case noInstruction =>
    rintro ⟨w, rfl⟩
    rw [hend rfl, State.halt_status, hst]
  case regIndex => rw [hend (exec_of_firstUnnamed hbad), State.fatal_status, hst]
  case memBounds => rw [hend (exec_of_not_inside hn ha hout), State.fatal_status, hst]
  case brZr =>
    rintro rn rfl hz
    rw [hend (exec_br_idxZr hn hz), State.halt_status, hst]
  case stackOverflow =>
    obtain ⟨rd, he⟩ := exec_of_overflowing hn ho
    rw [hend he, State.fatal_status, State.setReg_status, hst]
  case unchanged =>
    obtain ⟨u, hu, hsame⟩ := exec_keeps_status hi hn ha hb ho
    rw [hend hu, hsame]

/-- Settles O14: the event is the one between the state before the fetched instruction and the state after it. -/
theorem eventOfAStep : Obligations.EventOfAStep := by
  refine fun s _ => ⟨State.event_of_not_fetches, fun hf => ?_⟩
  obtain ⟨t, he⟩ := exec_completes (nextInstr s) s
  have hevent := State.event_of_fetches hf he
  refine ⟨t, (step_of_fetches hf).trans he, fun hr => by rw [hevent, if_neg hr], fun hr => ?_⟩
  refine ⟨_, hevent.trans (if_pos hr), rfl, rfl, rfl, ?_⟩
  change s.accessOf (nextInstr s) = _
  cases nextInstr s <;> rfl

/-- Settles O30: the three checks pass, and the advance starts from the value written to pc. -/
theorem programCounterDestination : Obligations.ProgramCounterDestination := by
  intro s rn rm imm ⟨⟨hv, _⟩, _⟩ hn hm
  have hpc : Named s.config (s.config.idxPc : Int) := named_idxPc hv
  have hregs (t : State) : s.checkRegs [(s.config.idxPc : Int), rn, rm] t = t :=
    State.checkRegs_of_named (List.forall_mem_cons.mpr ⟨hpc, List.forall_mem_cons.mpr ⟨hn,
      List.forall_mem_singleton.mpr hm⟩⟩) t
  exact ⟨⟨_, congrArg Host.Outcome.next (hregs _), State.jumped_advance_setReg_idxPc hv _⟩,
    ⟨_, congrArg Host.Outcome.next (hregs _), State.jumped_advance_setReg_idxPc hv _⟩,
    fun hin => ⟨_, exec_ldur_of_inside hpc hn hin, State.jumped_advance_setReg_idxPc hv _⟩⟩

/-- Settles O59: the run and its events take the first step off the front, in a terminal state too. -/
theorem runIsRepeatedSteps : Obligations.RunIsRepeatedSteps := by
  intro h n
  obtain ⟨t, ht⟩ := step_completes h.machine
  refine ⟨rfl, rfl, ?_, ?_⟩ <;> rw [Session.step_eq ht]
  · exact congrArg (Session.mk · true) (State.runFor_succ ht n)
  · exact State.eventsFor_succ ht n

/-- Settles O8: steps 0 to 3 of R92 answer the decoding of the record at pc. -/
theorem stepRunsTheDecodedInstruction : Obligations.StepRunsTheDecodedInstruction :=
  fun _ hr hpc => step_of_fetches ⟨hr, hpc⟩

/-- Settles O10: the step, the event and the run each test STATUS first. -/
theorem terminalStatesAbsorb : Obligations.TerminalStatesAbsorb :=
  fun _ h => ⟨step_of_not_running h, State.event_of_not_running h, State.runFor_of_not_running h⟩

end Sys2Proof.Proofs
end

section
/-! SUPPORT. The unsigned reading of a wrapped sum and of a shifted word (R111, R112), and the shape the rules of the
arithmetic instructions share: check the register fields, write the destination, check the bound of the stack, advance
(R113 to R118). -/

namespace Sys2Proof.Machine

open Sys2Proof.Claims

variable {s : State} {i : Instr} {rd : Word}

/-! ## The unsigned reading of results -/

/-- Narrowing keeps the bits (R8). -/
@[simp] theorem unsigned_wrap (n : Nat) (v : Int) : unsigned n (wrap n v) = unsigned n v := by
  rw [unsigned, unsigned, wrap, Int.bmod_emod]

@[simp] theorem unsigned_zero (n : Nat) : unsigned n 0 = 0 := by simp [unsigned]

/-- The bits of a sum are those of the unsigned sum (R111). -/
theorem unsigned_add (n : Nat) (a b : Int) : unsigned n (a + b) = (unsigned n a + unsigned n b) % 2 ^ n := by
  zify
  simpa only [unsigned_cast, Nat.cast_pow, Nat.cast_ofNat] using Int.add_emod a b _

/-- The bits of a product are those of the product with the unsigned factor. -/
theorem unsigned_mul_natCast (n : Nat) (v : Int) (k : Nat) : unsigned n (v * k) = unsigned n v * k % 2 ^ n := by
  zify
  simp only [unsigned_cast, Nat.cast_pow, Nat.cast_ofNat]
  exact ((Int.mod_modEq v (2 ^ n)).mul_right (k : Int)).symm

/-- A shift moves the unsigned reading up and cuts it to n bits (R112). -/
theorem Alu.unsigned_shiftLeft {n : Nat} {amount : Word} (h : unsigned n amount < n) (v : Word) :
    unsigned n (Alu.shiftLeft n v amount) = (unsigned n v <<< unsigned n amount) % 2 ^ n := by
  rw [Alu.shiftLeft, if_pos h, unsigned_wrap, unsigned_mul_natCast, Nat.shiftLeft_eq]

/-- An amount of n or more gives 0 (R112, D12). -/
theorem Alu.shiftLeft_of_le {n : Nat} {amount : Word} (h : n ≤ unsigned n amount) (v : Word) :
    Alu.shiftLeft n v amount = 0 := if_neg (Nat.not_lt.mpr h)

/-! ## The write of a destination, as the statements say it -/

/-- A write through a field that names a register changes that register alone (R9). -/
theorem State.wrote_setReg (h : s.inv) (hd : Named s.config rd) (v : Word) : Wrote s (s.setReg rd v) rd.toNat v := by
  refine ⟨⟨State.setReg_config .., State.setReg_status ..⟩, fun a => by rw [State.setReg_mem], fun j _ => ?_⟩
  rw [State.x_setReg h (Config.isReg_iff.mpr hd)]
  exact if_congr (and_congr_right fun hj => by rw [hj]) rfl rfl

/-- The pc a write leaves: the value written if IDX_PC is the destination (R97). -/
theorem State.setReg_pc (h : s.inv) (hd : Named s.config rd) (v : Word) :
    (s.setReg rd v).pc = if rd.toNat = s.config.idxPc then v else s.x s.config.idxPc := by
  have hr : s.config.registersValid := h.1.1
  have hc : (s.setReg rd v).config = s.config := s.setReg_config rd v
  obtain ⟨-, hz, -⟩ := Config.reserved_facts hr
  rw [← State.x_idxPc (s := s.setReg rd v) (hc ▸ hr), hc, State.x_setReg h (Config.isReg_iff.mpr hd)]
  exact if_congr ⟨fun e => e.1.symm, fun e => ⟨e.symm, fun hzr => hz (hzr.symm.trans e)⟩⟩ rfl rfl

/-- The advance after a write starts from the pc the write leaves (R97). -/
theorem State.wroteAndAdvanced_setReg (h : s.inv) (hd : Named s.config rd) (v : Word) :
    WroteAndAdvanced s (s.setReg rd v).advance rd.toNat v := by
  obtain ⟨hctl, hmem, hx⟩ := State.wrote_setReg h hd v
  have hc : (s.setReg rd v).config = s.config := hctl.1
  refine ⟨hctl, hmem, fun j hj => ?_⟩
  rw [State.x_advance (hc ▸ h.1.1), hx j hj, hc, State.nextPc, hc, State.setReg_pc h hd]
  rfl

/-- After a write that is checked against the bound of the stack: past the bound the write is kept, STATUS says
STACK_OVERFLOW with the result, and pc is not advanced (R118). -/
theorem State.advanceUnless_setReg (h : s.inv) (hd : Named s.config rd) (v : Word) {bad : Bool} {past : Prop}
    [Decidable past] (hp : bad = true ↔ past) :
    if past then ∃ u, Wrote s u rd.toNat v ∧ (s.setReg rd v).advanceUnless bad v = Fatal u .stackOverflow v
    else WroteAndAdvanced s ((s.setReg rd v).advanceUnless bad v) rd.toNat v := by
  obtain ⟨hbad, he⟩ | ⟨hbad, he⟩ := (s.setReg rd v).advanceUnless_cases bad v <;> rw [he]
  · rw [if_neg (by simp [← hp, hbad])]
    exact State.wroteAndAdvanced_setReg h hd v
  · rw [if_pos (hp.mp hbad)]
    exact ⟨_, State.wrote_setReg h hd v, rfl⟩

/-! ## The rule of an instruction -/

/-- The rule of an instruction is what it does once its register fields have passed their check: the record the encoder
writes decodes to it (R72), and the check itself is the same for all (R96). -/
theorem obeys_of_named {t : State} {post : State → Prop} (h : s.inv) (hi : i.encodable s.config.opc = true)
    (he : exec i s = .next (s.checkRegs i.regFields t)) (ht : (∀ w ∈ i.regFields, Named s.config w) → post t) :
    Obeys s (encode s.config.opc i) i i.regFields post := by
  obtain ⟨⟨-, hopc, -⟩, -⟩ := id h
  exact ⟨decode_encode hopc hi, fun _ => exec_of_firstUnnamed,
    fun hn => ⟨t, by rw [he, State.checkRegs_of_named hn], ht hn⟩⟩

end Sys2Proof.Machine
end

section
/-! The statements about arithmetic: the wrapped sum and difference, the shift, and the rules of ADD, ADDI, SUB, SUBI
and LSL. -/

namespace Sys2Proof.Proofs

open Sys2Proof.Machine Sys2Proof.Claims

/-- Settles O33: narrowing gives a congruent word, and keeps the bits of the sum. -/
theorem arithmeticWraps : Obligations.ArithmeticWraps := fun n a b hn =>
  ⟨⟨wrap_isWord hn _, dvd_wrap_sub n _⟩, ⟨wrap_isWord hn _, dvd_wrap_sub n _⟩,
    (unsigned_wrap n _).trans (unsigned_add n a b)⟩

/-- Settles O34: the unsigned reading is moved up by the amount and cut to n bits, and bit k below n is not cut. -/
theorem shiftMovesBits : Obligations.ShiftMovesBits := by
  refine fun n v s _ => ⟨fun k hk => ?_, fun hs => Alu.shiftLeft_of_le hs v⟩
  by_cases hs : unsigned n s < n
  · rw [Alu.unsigned_shiftLeft hs, Nat.testBit_mod_two_pow, Nat.testBit_shiftLeft, decide_eq_true hk, Bool.true_and]
  · have hlow : ¬ unsigned n s ≤ k := by omega
    rw [Alu.shiftLeft_of_le (Nat.not_lt.mp hs), unsigned_zero, Nat.zero_testBit, decide_eq_false hlow, Bool.false_and]

/-- Settles O15: the sum is written and pc advances. -/
theorem addRule : Obligations.AddRule := fun _ rd rn rm h =>
  obeys_of_named (i := .add rd rn rm) h rfl rfl fun hn => State.wroteAndAdvanced_setReg h (hn rd (.head _)) _

/-- Settles O17: the difference is written and pc advances. -/
theorem subRule : Obligations.SubRule := fun _ rd rn rm h =>
  obeys_of_named (i := .sub rd rn rm) h rfl rfl fun hn => State.wroteAndAdvanced_setReg h (hn rd (.head _)) _

/-- Settles O19: the shifted value is written and pc advances. -/
theorem lslRule : Obligations.LslRule := fun _ rd rn imm h =>
  obeys_of_named (i := .lsl rd rn imm) h rfl rfl fun hn => State.wroteAndAdvanced_setReg h (hn rd (.head _)) _

/-- Settles O16: the sum is written and then checked against the upper bound, if the source field is IDX_SP. -/
theorem addiRule : Obligations.AddiRule := fun _ rd rn imm h =>
  obeys_of_named (i := .addi rd rn imm) h rfl rfl fun hn => State.advanceUnless_setReg h (hn rd (.head _)) _
    (Bool.and_eq_true_iff.trans (and_congr fieldIs_iff aboveStack_iff))

/-- Settles O18: the difference is written and then checked against the lower bound, if the source field is IDX_SP. -/
theorem subiRule : Obligations.SubiRule := fun _ rd rn imm h =>
  obeys_of_named (i := .subi rd rn imm) h rfl rfl fun hn => State.advanceUnless_setReg h (hn rd (.head _)) _
    (Bool.and_eq_true_iff.trans (and_congr fieldIs_iff belowStack_iff))

end Sys2Proof.Proofs
end

section
/-! SUPPORT. The shape the rules of LDUR and STUR share: check the register fields, check the effective address, and then
act (R120); and what the store of a STUR changes (R122). -/

namespace Sys2Proof.Machine

open Sys2Proof.Claims

variable {s : State}

/-- The rule of a load or a store is what it does once its effective address has passed its check; on an invalid address
only STATUS changes, to MEM_BOUNDS with the address (R120, R154). -/
theorem obeys_of_access {i : Instr} {ea : Word} {t : State} {post : State → Prop} (h : s.inv)
    (hi : i.encodable s.config.opc = true) (he : exec i s = .next (s.checkRegs i.regFields (s.checkAddr ea t)))
    (ht : (∀ w ∈ i.regFields, Named s.config w) → post t) :
    Obeys s (encode s.config.opc i) i i.regFields fun u =>
      (Inside s.config ea → post u) ∧ (¬ Inside s.config ea → u = Fatal s .memBounds ea) := by
  refine obeys_of_named h hi he fun hn => ⟨fun hin => ?_, fun hout => if_neg (mt validAddr_iff.mp hout)⟩
  rw [State.checkAddr, if_pos (validAddr_iff.mpr hin)]
  exact ht hn

/-- A store and the advance after it change slot 0 of the record stored to, and pc (R122). -/
theorem State.storedAndAdvanced_store (h : s.inv) (a : Nat) (v : Word) :
    StoredAndAdvanced s (s.store a v).advance a v := by
  obtain ⟨⟨hv, -⟩, -, hm, -⟩ := h
  refine ⟨⟨rfl, rfl⟩, Memory.read_storeSlot0 hm a v, fun j _ => ?_⟩
  rw [State.x_advance (s := s.store a v) hv, State.x_store, State.x_idxPc hv]
  rfl

end Sys2Proof.Machine
end

section
/-! The statements about LDUR and STUR: their rules at every operand. -/

namespace Sys2Proof.Proofs

open Sys2Proof.Machine Sys2Proof.Claims

/-- Settles O20: slot 0 of the addressed record is written to the destination and pc advances. -/
theorem ldurRule : Obligations.LdurRule := fun _ rt rn imm h =>
  obeys_of_access (i := .ldur rt rn imm) h rfl rfl fun hn => State.wroteAndAdvanced_setReg h (hn rt (.head _)) _

/-- Settles O21: the register is stored into slot 0 of the addressed record and pc advances. -/
theorem sturRule : Obligations.SturRule := fun _ rt rn imm h =>
  obeys_of_access (i := .stur rt rn imm) h rfl rfl fun _ => State.storedAndAdvanced_store h _ _

end Sys2Proof.Proofs
end

section
/-! SUPPORT. The control transfers: their records have unused slots that may hold anything (R70), a transfer changes pc
alone or pc and lr (R130 to R135), its target is first looked at by the next fetch (R137); and a machine whose step
changes nothing (R180). -/

namespace Sys2Proof.Machine

open Sys2Proof.Claims

variable {s t u : State} {i : Instr} {r target : Word}

/-! ## The shape of a transfer's rule -/

/-- The rule of an instruction without a third operand holds of its record with any value in the slots its format does
not use (R70). -/
theorem obeys_of_unused_slots {m : Mnemonic} {op2 op3 : Word} {post : State → Prop} (h : s.inv)
    (hi : i.encodable s.config.opc = true) (hm : i.mnemonic = some m)
    (h2 : op2 = (encode s.config.opc i).s2 ∨ m.format.arity < 2) (h3 : m.format.arity < 3)
    (he : exec i s = .next (s.checkRegs i.regFields t)) (ht : (∀ w ∈ i.regFields, Named s.config w) → post t) :
    Obeys s ⟨(encode s.config.opc i).s0, (encode s.config.opc i).s1, op2, op3⟩ i i.regFields post := by
  obtain ⟨⟨-, hopc, -⟩, -⟩ := id h
  obtain ⟨hdecode, hbad, hok⟩ := obeys_of_named h hi he ht
  refine ⟨Eq.trans ?_ hdecode, hbad, hok⟩
  refine Proofs.unusedSlotsIgnored _ _ _ rfl fun n hn => ?_
  obtain rfl : m = n := Option.some.inj ((hm.symm.trans (lookup_encode hopc hi).symm).trans hn)
  exact ⟨rfl, fun hn2 => h2.resolve_right (Nat.not_lt.mpr hn2), fun hn3 => absurd h3 (Nat.not_lt.mpr hn3)⟩

/-- A transfer that is not taken is a jump to the next record (R29). -/
theorem State.jumped_advance (h : s.config.registersValid) : Jumped s s.advance (plus s (s.x s.config.idxPc) 4) := by
  rw [State.x_idxPc h]
  exact State.jumped_setPc h _

/-- A test that chooses between two jumps chooses between their targets. -/
theorem jumped_ite {c d : Prop} [Decidable c] [Decidable d] {a b : Word} (hcd : c ↔ d) (ht : Jumped s t a)
    (hu : Jumped s u b) : Jumped s (if c then t else u) (if d then a else b) := by
  by_cases hc : c
  · rwa [if_pos hc, if_pos (hcd.mp hc)]
  · rwa [if_neg hc, if_neg (mt hcd.mpr hc)]

/-- After BL only pc and lr read otherwise than before (R134). -/
theorem State.x_setPc_setLr (h : s.config.registersValid) (v target : Word) (j : Nat) :
    ((s.setLr v).setPc target).x j =
      if j = s.config.idxPc then target else if j = s.config.idxLr then v else s.x j := by
  rw [State.x_setPc (s := s.setLr v) h, State.x_setLr h]
  rfl

/-! ## Transfers that are taken -/

/-- CBZ of a register that is 0 (R131). -/
theorem exec_cbz_of_eq (hr : Named s.config r) (hz : s.x r.toNat = 0) :
    exec (.cbz r target) s = .next (s.setPc target) :=
  congrArg Host.Outcome.next
    ((State.checkRegs_of_named (List.forall_mem_singleton.mpr hr) _).trans (if_pos (isZero_iff.mpr hz)))

/-- CBNZ of a register that is not 0 (R132). -/
theorem exec_cbnz_of_ne (hr : Named s.config r) (hz : s.x r.toNat ≠ 0) :
    exec (.cbnz r target) s = .next (s.setPc target) :=
  congrArg Host.Outcome.next
    ((State.checkRegs_of_named (List.forall_mem_singleton.mpr hr) _).trans (if_neg (mt isZero_iff.mp hz)))

/-- BR of a register other than the zero register (R133). -/
theorem exec_br_of_ne (hr : Named s.config r) (hz : r.toNat ≠ s.config.idxZr) :
    exec (.br r) s = .next (s.setPc (s.x r.toNat)) :=
  congrArg Host.Outcome.next
    ((State.checkRegs_of_named (List.forall_mem_singleton.mpr hr) _).trans (if_neg (mt fieldIs_iff.mp hz)))

/-- After BL, BR of the link register goes to the link value (R134, R136). -/
theorem exec_br_idxLr_after_link (h : s.config.registersValid) (v target : Word) :
    exec (.br (s.config.idxLr : Int)) ((s.setLr v).setPc target) = .next (((s.setLr v).setPc target).setPc v) := by
  obtain ⟨-, -, hne, -, -, -, -, -, -, -, -, -, -, hlt⟩ := Config.reserved_facts h
  have hlr : ((s.setLr v).setPc target).x s.config.idxLr = v := State.x_idxLr (s := (s.setLr v).setPc target) h
  have he := exec_br_of_ne (s := (s.setLr v).setPc target) (Config.isReg_iff.mp (Config.isReg_cast hlt)) hne.symm
  rwa [Int.toNat_natCast, hlr] at he

/-! ## The step after a transfer -/

/-- A fetched record whose opcode is none of the twelve numbers halts the machine (R140). -/
theorem step_of_lookup_eq_none (hf : Fetches s) (hnone : s.config.opc.lookup (s.mem.read s.pc.toNat).s0 = none) :
    step s = .next (s.halt .noInstruction) := by
  rw [step_of_fetches hf, nextInstr, decode_eq_noInstruction.mpr ⟨hnone, rfl⟩]
  rfl

/-- An instruction that leaves the machine running, with its configuration and memory, lands where it puts pc (R137). -/
theorem lands_of_exec (he : exec i s = .next t) (hrun : t.status.state = .running) (hpc : t.pc = target)
    (hc : t.config = s.config) (hm : t.mem = s.mem) : Lands s i target := by
  subst hpc
  refine ⟨t, he, hrun, rfl, fun hout => step_of_not_inside hrun (hc ▸ hout), fun hin hnone => ?_⟩
  exact step_of_lookup_eq_none ⟨hrun, hc ▸ hin⟩ (by rwa [hc, hm])

/-- A machine whose step changes nothing stays as it is (R99). -/
theorem State.runFor_of_step_self (h : step s = .next s) (n : Nat) : s.runFor n = s := by
  induction n with
  | zero => rfl
  | succ n ih => rw [State.runFor_succ h, ih]

end Sys2Proof.Machine
end

section
/-! The statements about control transfer: the rules of CBZ, CBNZ, BR, BL and B at every operand, targets checked at the
next fetch, a B to itself, and call and return. -/

namespace Sys2Proof.Proofs

open Sys2Proof.Machine Sys2Proof.Claims

/-- Settles O22: the zero test chooses between the jump to the target and the advance. -/
theorem cbzRule : Obligations.CbzRule := fun _ rt target _ h =>
  obeys_of_unused_slots (i := .cbz rt target) h rfl rfl (.inl rfl) (by decide) rfl fun _ =>
    jumped_ite isZero_iff (State.jumped_setPc h.1.1 target) (State.jumped_advance h.1.1)

/-- Settles O23: the zero test chooses between the advance and the jump to the target. -/
theorem cbnzRule : Obligations.CbnzRule := fun _ rt target _ h =>
  obeys_of_unused_slots (i := .cbnz rt target) h rfl rfl (.inl rfl) (by decide) rfl fun _ => by
    rw [ite_not]
    exact jumped_ite isZero_iff (State.jumped_advance h.1.1) (State.jumped_setPc h.1.1 target)

/-- Settles O24: the test is on the field, and the register's value is the target. -/
theorem brRule : Obligations.BrRule := fun _ rn _ _ h =>
  obeys_of_unused_slots (i := .br rn) h rfl rfl (.inr (by decide)) (by decide) rfl fun _ =>
    ⟨fun hz => if_pos (fieldIs_iff.mpr hz), fun hz => by
      rw [if_neg (mt fieldIs_iff.mp hz)]
      exact State.jumped_setPc h.1.1 _⟩

/-- Settles O25: lr takes the address after the BL, and then pc the target. -/
theorem blRule : Obligations.BlRule := fun s target _ _ h =>
  obeys_of_unused_slots (i := .bl target) h rfl rfl (.inr (by decide)) (by decide) rfl fun _ =>
    ⟨⟨rfl, rfl⟩, fun _ => rfl, fun j _ => by
      rw [State.x_idxPc h.1.1]
      exact State.x_setPc_setLr h.1.1 s.nextPc target j⟩

/-- Settles O26: pc takes the target. -/
theorem bRule : Obligations.BRule := fun _ target _ _ h =>
  obeys_of_unused_slots (i := .b target) h rfl rfl (.inr (by decide)) (by decide) rfl fun _ =>
    State.jumped_setPc h.1.1 target

/-- Settles O39: a transfer that is taken changes neither STATUS nor memory, so the next step makes the checks of a
running machine at the target. -/
theorem targetsAreCheckedAtTheNextFetch : Obligations.TargetsAreCheckedAtTheNextFetch := fun _ _ _ _ hrun hr =>
  ⟨lands_of_exec rfl hrun rfl rfl rfl, lands_of_exec rfl hrun rfl rfl rfl,
    fun hz => lands_of_exec (exec_cbz_of_eq hr hz) hrun rfl rfl rfl,
    fun hz => lands_of_exec (exec_cbnz_of_ne hr hz) hrun rfl rfl rfl,
    fun hz => lands_of_exec (exec_br_of_ne hr hz) hrun rfl rfl rfl⟩

/-- Settles O40: the B puts pc where it is, so the step changes nothing. -/
theorem branchToSelfRunsForever : Obligations.BranchToSelfRunsForever := by
  intro s hf hb
  have hself : step s = .next s := by
    rw [step_of_fetches hf, hb]
    rfl
  have hrun (n : Nat) : s.runFor n = s := State.runFor_of_step_self hself n
  exact ⟨fun n => by rw [hrun n]; exact hf.1, hrun⟩

/-- Settles O41: lr holds the address after the BL, and BR LR jumps to what lr holds. -/
theorem callAndReturn : Obligations.CallAndReturn := fun s target ⟨⟨hv, _⟩, _⟩ =>
  ⟨_, _, rfl, rfl, exec_br_idxLr_after_link hv s.nextPc target, rfl⟩

end Sys2Proof.Proofs
end

section
/-! The statement about the unrecognized opcode. -/

namespace Sys2Proof.Proofs

open Sys2Proof.Machine Sys2Proof.Claims

/-- Settles O27: a number that is none of the twelve selects no mnemonic, and no instruction has no operand to check
before it halts the run. -/
theorem noInstructionRule : Obligations.NoInstructionRule := by
  intro s r hr
  have hnone : s.config.opc.lookup r.s0 = none := Opcodes.lookup_eq_none.mpr hr
  exact ⟨decode_eq_noInstruction.mpr ⟨hnone, rfl⟩, rfl⟩

end Sys2Proof.Proofs
end

section
/-! SUPPORT. REG_INDEX is the cause of the register-index check alone (R96, R155). -/

namespace Sys2Proof.Machine

open Sys2Proof.Claims

variable {s t : State} {i : Instr}

/-- Past the register-index check an instruction raises STACK_OVERFLOW (R152), MEM_BOUNDS (R154) or nothing. -/
theorem Effect.cause_ne_regIndex (he : Effect s i t) (h : s.status.cause ≠ .regIndex) : t.status.cause ≠ .regIndex := by
  cases he with
  | wrote => rwa [State.advance_status, State.setReg_status]
  | overflowed => exact nofun
  | outOfBounds => exact nofun
  | stored | jumped | linked | halted => exact h

/-- An instruction raises REG_INDEX exactly if one of its register fields names no register (R155). -/
theorem exec_cause_regIndex_iff (he : exec i s = .next t) (h : s.status.cause ≠ .regIndex) :
    t.status.cause = .regIndex ↔ ∃ w ∈ i.regFields, ¬ Named s.config w := by
  obtain ⟨bad, hmem, hbad, rfl⟩ | ⟨hn, heff⟩ := exec_cases he
  · exact iff_of_true rfl ⟨bad, hmem, hbad⟩
  · exact iff_of_false (heff.cause_ne_regIndex h) fun ⟨w, hw, hbad⟩ => hbad (hn w hw)

end Sys2Proof.Machine
end

section
/-! The statements about the fatal conditions PC_INVALID and REG_INDEX. -/

namespace Sys2Proof.Proofs

open Sys2Proof.Machine Sys2Proof.Claims

/-- Settles O13: the check stops at the first bad field, and a running machine has no cause before it. -/
theorem regIndexExactly : Obligations.RegIndexExactly := by
  intro s i ⟨_, _, _, _, hcoh, _⟩ hrun
  have hcause : s.status.cause ≠ .regIndex := by
    rw [Status.eq_of_running hcoh hrun]
    decide
  obtain ⟨t, ht⟩ := exec_completes i s
  exact ⟨fun _ => exec_of_firstUnnamed, t, ht, exec_cause_regIndex_iff ht hcause⟩

/-- Settles O9: step 1 of R92 raises PC_INVALID before anything is fetched. -/
theorem invalidPcStops : Obligations.InvalidPcStops := fun _ => step_of_not_inside

end Sys2Proof.Proofs
end

section
/-! SUPPORT. The program load (R174) and the boot sequence (R175): what a load leaves at every address, whether it is taken
or passed over, and what reset leaves in every register (R170). -/

namespace Sys2Proof.Machine

open Sys2Proof.Claims

variable {s : State} {c : Config}

/-! ## One load -/

/-- A load clears a record and then writes it; the cleared record is not seen afterwards (R174). -/
theorem Memory.read_write_write {m : Memory} (h : m.wf = true) (a : Nat) (q r : Record) (b : Nat) :
    ((m.write a q).write a r).read b = if b = a then r else m.read b := by
  rw [Memory.read_write (Memory.write_wf h a q), Memory.read_write h]
  split_ifs <;> rfl

theorem State.load_of_inside {a : Int} (ha : Inside s.config a) (r : Record) :
    s.load a r = some { s with mem := (s.mem.write a.toNat .zero).write a.toNat r } :=
  if_pos (validAddr_iff.mpr ha)

theorem State.load_of_not_inside {a : Int} (ha : ¬ Inside s.config a) (r : Record) : s.load a r = none :=
  if_neg (mt validAddr_iff.mp ha)

/-- All that a load of an image's line can do: it is taken, or passed over (R76, R174). -/
theorem State.loadOrSkip_cases (s : State) (line : Int × Record) :
    (Inside s.config line.1 ∧
      s.loadOrSkip line = { s with mem := (s.mem.write line.1.toNat .zero).write line.1.toNat line.2 }) ∨
      (¬ Inside s.config line.1 ∧ s.loadOrSkip line = s) := by
  by_cases hin : Inside s.config line.1
  · exact .inl ⟨hin, by rw [State.loadOrSkip, State.load_of_inside hin, Option.getD_some]⟩
  · exact .inr ⟨hin, by rw [State.loadOrSkip, State.load_of_not_inside hin, Option.getD_none]⟩

@[simp] theorem State.loadOrSkip_config (s : State) (line : Int × Record) : (s.loadOrSkip line).config = s.config := by
  obtain ⟨-, he⟩ | ⟨-, he⟩ := s.loadOrSkip_cases line <;> rw [he]

theorem State.loadOrSkip_mem_wf (h : s.mem.wf = true) (line : Int × Record) :
    Memory.wf (s.loadOrSkip line).mem = true := by
  obtain ⟨-, he⟩ | ⟨-, he⟩ := s.loadOrSkip_cases line <;> rw [he]
  · exact Memory.write_wf (Memory.write_wf h _ _) _ _
  · exact h

/-- A valid address is not the address of a line that is passed over. -/
theorem State.read_loadOrSkip (h : s.mem.wf = true) (line : Int × Record) {a : Nat} (ha : a < s.config.memSize) :
    (s.loadOrSkip line).mem.read a = if line.1 = (a : Int) then line.2 else s.mem.read a := by
  obtain ⟨⟨hnonneg, -⟩, he⟩ | ⟨hout, he⟩ := s.loadOrSkip_cases line <;> rw [he]
  · have hiff : a = line.1.toNat ↔ line.1 = (a : Int) := by omega
    rw [Memory.read_write_write h, if_congr hiff rfl rfl]
  · have hne : line.1 ≠ (a : Int) := fun e => hout (by omega)
    rw [if_neg hne]

/-! ## The loads of an image -/

theorem State.boot_append_singleton (c : Config) (image : List (Int × Record)) (line : Int × Record) :
    State.boot c (image ++ [line]) = (State.boot c image).loadOrSkip line := List.foldl_concat ..

@[simp] theorem State.boot_config (c : Config) (image : List (Int × Record)) : (State.boot c image).config = c := by
  induction image using List.reverseRecOn with
  | nil => rfl
  | append_singleton image line ih => rw [State.boot_append_singleton, State.loadOrSkip_config, ih]

theorem State.boot_mem_wf (c : Config) (image : List (Int × Record)) : Memory.wf (State.boot c image).mem = true := by
  induction image using List.reverseRecOn with
  | nil => exact State.resetWith_mem_wf c
  | append_singleton image line ih =>
    rw [State.boot_append_singleton]
    exact State.loadOrSkip_mem_wf ih line

/-! ## Reset -/

/-- Nothing is loaded after reset (R172). -/
@[simp] theorem State.read_resetWith (c : Config) (a : Nat) : (State.resetWith c).mem.read a = .zero := rfl

/-- After reset every register other than pc and sp reads 0 (R170). -/
theorem State.x_resetWith (h : c.registersValid) {j : Nat} (hpc : j ≠ c.idxPc) (hsp : j ≠ c.idxSp) :
    (State.resetWith c).x j = 0 := by
  unfold State.x
  cases hb : (State.resetWith c).config.bank j with
  | zero | link => rfl
  | general n => simp
  | programCounter => exact absurd (c.bank_injective (hb.trans (Config.bank_idxPc h).symm)) hpc
  | stackPointer => exact absurd (c.bank_injective (hb.trans (Config.bank_idxSp h).symm)) hsp

end Sys2Proof.Machine
end

section
/-! The statements about reset and the program load: the reset values, one load, the loads of an image, and the first step
when there are none. -/

namespace Sys2Proof.Proofs

open Sys2Proof.Machine Sys2Proof.Claims

/-- Settles O48: the record is cleared and then written, and both writes are at its own address. -/
theorem loadRule : Obligations.LoadRule := by
  intro s a r ⟨_, _, hwf, _⟩
  refine ⟨fun hin => ⟨_, State.load_of_inside hin r, fun b => ?_, rfl⟩, fun hout => State.load_of_not_inside hout r⟩
  have hiff : b = a.toNat ↔ (b : Int) = a := by omega
  rw [Memory.read_write_write hwf, if_congr hiff rfl rfl]

/-- Settles O49, by induction on the image from its last line: the last line decides its own address, and the loads before
it every other one. -/
theorem lastLoadWins : Obligations.LastLoadWins := by
  intro c image a _ ha
  induction image using List.reverseRecOn with
  | nil => rfl
  | append_singleton image line ih =>
    have hin : a < (State.boot c image).config.memSize := by rwa [State.boot_config]
    rw [State.boot_append_singleton, State.read_loadOrSkip (State.boot_mem_wf c image) line hin, List.reverse_concat,
      List.find?_cons]
    by_cases he : line.1 = (a : Int)
    · rw [if_pos he, beq_iff_eq.mpr he]
    · rw [if_neg he, beq_eq_false_iff_ne.mpr he]
      exact ih

/-- Settles O47: of the registers only pc and sp are reset to a value of the configuration, and reset reads nothing else of
the state before it. -/
theorem resetRule : Obligations.ResetRule := fun s ⟨hreg, _⟩ =>
  ⟨rfl, rfl, fun _ _ => State.x_resetWith hreg, State.read_resetWith s.config, rfl, fun _ => congrArg State.resetWith⟩

/-- Settles O52: the start address is valid, and the zero record there holds the opcode no valid configuration numbers. -/
theorem emptyMemoryHaltsAtOnce : Obligations.EmptyMemoryHaltsAtOnce := by
  intro c ⟨_, hopc, ⟨_, _, _, hstart⟩, _⟩
  have hin : Inside c c.startAddress := by omega
  exact step_of_lookup_eq_none ⟨rfl, hin⟩ (Opcodes.lookup_zero hopc)

end Sys2Proof.Proofs
end

section
/-! SUPPORT. What keeps the invariant: each check, each instruction with words as operands, each step, each load, and so
every run after reset; and what a load leaves unchanged. -/

namespace Sys2Proof.Machine

open Sys2Proof.Claims

variable {s t : State} {i : Instr} {c : Config}

/-! ## The words of a state -/

theorem State.pc_isWord (h : s.inv) : isWord s.config.xlen s.pc := by
  obtain ⟨-, -, -, -, -, -, -, hpc, -⟩ := h
  exact hpc

/-- Every record reads as a record of words (R36). -/
theorem State.read_fits (h : s.inv) (a : Nat) : (s.mem.read a).fits s.config.xlen := by
  obtain ⟨-, -, -, -, -, -, -, -, -, -, hmem⟩ := h
  exact Memory.read_fits hmem a

/-! ## The checks -/

/-- The register-index check stores a field of the instruction in info, or lets the instruction end (R155). -/
theorem State.inv_checkRegs (h : s.inv) (hr : s.status.state = .running) {fields : List Word}
    (hf : ∀ w ∈ fields, isWord s.config.xlen w) (ht : t.inv) : (s.checkRegs fields t).inv := by
  obtain ⟨-, he⟩ | ⟨bad, hbad, -, he⟩ := s.checkRegs_cases fields t <;> rw [he]
  · exact ht
  · exact State.inv_fatal h hr (by decide) (hf bad hbad)

/-- The address check stores the effective address in info, or lets the access happen at a valid address (R154). -/
theorem State.inv_checkAddr (h : s.inv) (hr : s.status.state = .running) {ea : Word} (hw : isWord s.config.xlen ea)
    (ht : s.config.validAddr ea = true → t.inv) : (s.checkAddr ea t).inv := by
  obtain ⟨hv, he⟩ | ⟨-, he⟩ := s.checkAddr_cases ea t <;> rw [he]
  · exact ht hv
  · exact State.inv_fatal h hr (by decide) hw

/-- The end of an ADDI or SUBI: the result is written, and past the bound it is stored in info too (R118). -/
theorem State.inv_advanceUnless_setReg (h : s.inv) (hr : s.status.state = .running) (rd : Word) (bad : Bool)
    {res : Word} (hw : isWord s.config.xlen res) : ((s.setReg rd res).advanceUnless bad res).inv := by
  have hinv : (s.setReg rd res).inv := State.inv_setReg h rd hw
  obtain ⟨-, he⟩ | ⟨-, he⟩ := (s.setReg rd res).advanceUnless_cases bad res <;> rw [he]
  · exact State.inv_advance hinv
  · exact State.inv_fatal hinv (by rwa [State.setReg_status]) (by decide) (by rwa [State.setReg_config])

/-! ## Instructions and steps -/

/-- The register fields are the first operands. -/
theorem regFields_prefix_operands (i : Instr) : i.regFields <+: i.operands := by
  cases i <;> exact ⟨_, rfl⟩

theorem fits_iff {n : Nat} : i.fits n = true ↔ ∀ v ∈ i.operands, isWord n v := by
  simp only [Instr.fits, List.all_eq_true, decide_eq_true_eq]

/-- An instruction with words as operands, its register fields checked, ends in a state of the invariant: what it writes
is a wrapped result, a register, a slot of memory or an operand. -/
theorem exec_eq_checkRegs_inv (h : s.inv) (hr : s.status.state = .running)
    (hi : ∀ v ∈ i.operands, isWord s.config.xlen v) :
    ∃ t, exec i s = .next (s.checkRegs i.regFields t) ∧ t.inv := by
  have hn : 1 ≤ s.config.xlen := State.one_le_xlen h
  have hwrite {v : Word} (rd : Word) (hv : isWord s.config.xlen v) : (s.setReg rd v).advance.inv :=
    State.inv_advance (State.inv_setReg h rd hv)
  have hjump {target : Word} (ht : target ∈ i.operands) : (s.setPc target).inv := State.inv_setPc h (hi target ht)
  cases i with
  | add rd rn rm | sub rd rn rm => exact ⟨_, rfl, hwrite rd (wrap_isWord hn _)⟩
  | lsl rd rn imm => exact ⟨_, rfl, hwrite rd (Alu.shiftLeft_isWord hn _ _)⟩
  | addi rd rn imm | subi rd rn imm => exact ⟨_, rfl, State.inv_advanceUnless_setReg h hr rd _ (wrap_isWord hn _)⟩
  | ldur rt rn imm =>
    exact ⟨_, rfl, State.inv_checkAddr h hr (wrap_isWord hn _) fun _ => hwrite rt (State.read_fits h _).1⟩
  | stur rt rn imm =>
    exact ⟨_, rfl, State.inv_checkAddr h hr (wrap_isWord hn _) fun hv =>
      State.inv_advance (State.inv_store h (validAddr_toNat hv).1 (State.x_isWord h _))⟩
  | cbz rt target =>
    refine ⟨_, rfl, ?_⟩
    split
    · exact hjump (.tail _ (.head _))
    · exact State.inv_advance h
  | cbnz rt target =>
    refine ⟨_, rfl, ?_⟩
    split
    · exact State.inv_advance h
    · exact hjump (.tail _ (.head _))
  | br rn =>
    refine ⟨_, rfl, ?_⟩
    split
    · exact State.inv_halt h hr (by decide)
    · exact State.inv_setPc h (State.x_isWord h _)
  | bl target =>
    exact ⟨_, rfl, State.inv_setPc (State.inv_setLr h (State.nextPc_isWord h)) (hi target (.head _))⟩
  | b target => exact ⟨_, rfl, hjump (.head _)⟩
  | noInstruction opcode => exact ⟨_, rfl, State.inv_halt h hr (by decide)⟩

/-- An instruction with words as operands keeps the invariant. -/
theorem exec_keeps_inv (h : s.inv) (hr : s.status.state = .running) (hi : i.fits s.config.xlen = true)
    (he : exec i s = .next t) : t.inv := by
  have hops := fits_iff.mp hi
  obtain ⟨u, hu, hinv⟩ := exec_eq_checkRegs_inv h hr hops
  obtain rfl := Host.Outcome.next.inj (hu.symm.trans he)
  exact State.inv_checkRegs h hr (fun w hw => hops w ((regFields_prefix_operands i).subset hw)) hinv

/-- Memory holds words, so the fetched instruction has words as operands. -/
theorem nextInstr_fits (h : s.inv) : (nextInstr s).fits s.config.xlen = true := decode_fits (State.read_fits h _)

theorem step_keeps_inv (h : s.inv) (hstep : step s = .next t) : t.inv := by
  obtain ⟨-, rfl⟩ | ⟨hr, -, rfl⟩ | ⟨⟨hr, -⟩, he⟩ := step_cases hstep
  · exact h
  · exact State.inv_fatal h hr (by decide) (State.pc_isWord h)
  · exact exec_keeps_inv h hr (nextInstr_fits h) he

/-! ## Reset, loads and runs -/

theorem State.inv_resetWith (h : c.valid) : (State.resetWith c).inv := by
  obtain ⟨-, -, ⟨hroom, -, hsp, hpc⟩, -⟩ := id h
  have haddr (a : Nat) (ha : a < c.memSize) : isWord c.xlen (a : Int) := by
    rw [isWord]
    omega
  have hcoh : Status.coherent {} := by decide
  refine ⟨h, by simp, rfl, nofun, hcoh, fun v hv => ?_, haddr _ hsp, haddr _ hpc, isWord_zero _, isWord_zero _, nofun⟩
  rw [List.eq_of_mem_replicate hv]
  exact isWord_zero _

/-- A load of a record of words keeps the invariant, taken or passed over (R76, R174). -/
theorem State.inv_loadOrSkip (h : s.inv) {line : Int × Record} (hr : line.2.fits s.config.xlen) :
    (s.loadOrSkip line).inv := by
  unfold State.loadOrSkip
  cases hl : s.load line.1 line.2 with
  | none => exact h
  | some t => exact State.inv_load h hr hl

/-- The loads of an image of words after reset (R175). -/
theorem State.inv_boot (h : c.valid) {image : List (Int × Record)} (hi : ∀ line ∈ image, line.2.fits c.xlen) :
    (State.boot c image).inv := by
  induction image using List.reverseRecOn with
  | nil => exact State.inv_resetWith h
  | append_singleton image line ih =>
    rw [State.boot_append_singleton]
    have hinv := ih fun l hl => hi l (List.mem_append_left _ hl)
    exact State.inv_loadOrSkip hinv (by rw [State.boot_config]; exact hi line (by simp))

theorem State.inv_runFor (h : s.inv) (n : Nat) : (s.runFor n).inv := by
  induction n generalizing s with
  | zero => exact h
  | succ n ih =>
    obtain ⟨t, ht⟩ := step_completes s
    rw [State.runFor_succ ht]
    exact ih (step_keeps_inv h ht)

/-! ## The configuration -/

/-- No effect changes the configuration (R20). -/
theorem Effect.config_eq (he : Effect s i t) : t.config = s.config := by
  cases he with
  | wrote v _ _ _ => rw [State.advance_config, State.setReg_config]
  | overflowed _ _ => rw [State.fatal_config, State.setReg_config]
  | outOfBounds | stored | jumped | linked | halted => rfl

/-! ## Loads of different addresses -/

/-- A load changes the record at its address, if that is valid, and no other (R76, R174). -/
theorem State.read_loadOrSkip_eq_ite (h : s.mem.wf = true) (line : Int × Record) (a : Nat) :
    (s.loadOrSkip line).mem.read a =
      if Inside s.config line.1 ∧ line.1 = (a : Int) then line.2 else s.mem.read a := by
  obtain ⟨hin, he⟩ | ⟨hout, he⟩ := s.loadOrSkip_cases line <;> rw [he]
  · have hiff : a = line.1.toNat ↔ Inside s.config line.1 ∧ line.1 = (a : Int) := by omega
    rw [Memory.read_write_write h, if_congr hiff rfl rfl]
  · rw [if_neg fun hin => hout hin.1]

/-- A load changes nothing but memory (R174). -/
theorem State.loadOrSkip_eq_with_mem (s : State) (line : Int × Record) :
    s.loadOrSkip line = { s with mem := (s.loadOrSkip line).mem } := by
  obtain ⟨-, he⟩ | ⟨-, he⟩ := s.loadOrSkip_cases line <;> rw [he]

/-- Loads of different addresses leave the same memory in either order (R175). -/
theorem State.loadOrSkip_mem_comm (h : s.mem.wf = true) {l k : Int × Record} (hne : l.1 ≠ k.1) :
    ((s.loadOrSkip l).loadOrSkip k).mem = ((s.loadOrSkip k).loadOrSkip l).mem := by
  have hwf (l : Int × Record) : Memory.wf (s.loadOrSkip l).mem = true := State.loadOrSkip_mem_wf h l
  refine Memory.ext_read (State.loadOrSkip_mem_wf (hwf l) k) (State.loadOrSkip_mem_wf (hwf k) l) fun a => ?_
  rw [State.read_loadOrSkip_eq_ite (hwf l), State.read_loadOrSkip_eq_ite h, State.read_loadOrSkip_eq_ite (hwf k),
    State.read_loadOrSkip_eq_ite h, State.loadOrSkip_config, State.loadOrSkip_config]
  split_ifs with hk hl
  · exact absurd (hl.2.trans hk.2.symm) hne
  all_goals rfl

/-! ## When a load is taken -/

/-- A load is refused as begun once a step has been requested (R51, R182). -/
theorem Session.load_of_started {h : Session} (hs : h.started = true) (a : Int) (r : Record) :
    h.load a r = .error .runBegun := if_pos hs

/-- Before any step a load is not refused for that reason. -/
theorem Session.load_ne_runBegun {h : Session} (hs : h.started = false) (a : Int) (r : Record) :
    h.load a r ≠ .error .runBegun := by
  rw [Session.load, if_neg (by simp [hs])]
  cases h.machine.load a r <;> exact nofun

/-- Every step request is remembered. -/
theorem Session.step_started (h : Session) : h.step.1.started = true := by
  obtain ⟨t, ht⟩ := step_completes h.machine
  rw [Session.step_eq ht]

end Sys2Proof.Machine
end

section
/-! The statements about the invariant, the configuration, and the loads of the host. -/

namespace Sys2Proof.Proofs

open Sys2Proof.Machine Sys2Proof.Claims

/-- Settles O44: a step is idle, raises PC_INVALID, or runs a fetched instruction, whose operands are words as memory
holds words. -/
theorem stepsKeepTheInvariant : Obligations.StepsKeepTheInvariant := fun _ _ => step_keeps_inv

/-- Settles O45, by induction on the loads and then on the steps. -/
theorem runsKeepTheInvariant : Obligations.RunsKeepTheInvariant := fun _ _ n hc hi =>
  State.inv_runFor (State.inv_boot hc hi) n

/-- Settles O46: a step changes STATUS alone, or has an effect of the instruction it fetched. -/
theorem configurationNeverChanges : Obligations.ConfigurationNeverChanges := by
  intro s t hstep
  obtain ⟨st, rfl⟩ | ⟨-, -, he⟩ := step_status_or_effect hstep
  · rfl
  · exact he.config_eq

/-- Settles O50: only memory changes, and memories in canonical form that read alike are the same data. -/
theorem loadsCommute : Obligations.LoadsCommute := by
  intro s a b r q ⟨_, _, hm, _⟩ hab
  have hmem := State.loadOrSkip_mem_comm hm (l := (a, r)) (k := (b, q)) hab
  rw [State.loadOrSkip_eq_with_mem (s.loadOrSkip (a, r)), State.loadOrSkip_eq_with_mem (s.loadOrSkip (b, q)), hmem,
    State.loadOrSkip_eq_with_mem s (a, r), State.loadOrSkip_eq_with_mem s (b, q)]

/-- Settles O43: both ends of what reset takes from the configuration are valid addresses, and the rest is 0. -/
theorem resetSatisfiesTheInvariant : Obligations.ResetSatisfiesTheInvariant :=
  ⟨fun _ => State.inv_resetWith, State.inv_resetWith (by decide)⟩

/-- Settles O51: every step or run request sets the flag, and reset clears it. -/
theorem loadsOnlyBeforeTheRun : Obligations.LoadsOnlyBeforeTheRun := fun h _ a r =>
  ⟨Session.load_of_started h.step_started a r, Session.load_of_started rfl a r, Session.load_ne_runBegun rfl a r⟩

end Sys2Proof.Proofs
end

section
/-! SUPPORT. Moves of sp (R114, R116, R118): one move of a sequence as an equation, and where a sequence of moves leaves
the stack region. -/

namespace Sys2Proof.Machine

open Sys2Proof.Claims

variable {s : State} {m : Bool × Word} {ms : List (Bool × Word)}

/-- Where one move takes sp on the integers. -/
def spAfter (sp : Int) (m : Bool × Word) : Int := if m.1 then sp + m.2 else sp - m.2

/-- Some first moves of the sequence take sp outside the stack region. -/
def Leaves (c : Config) (sp : Int) (ms : List (Bool × Word)) : Prop :=
  ∃ k ≤ ms.length, ¬ InStack c (movedTo sp (ms.take k))

theorem leaves_nil {c : Config} {sp : Int} : Leaves c sp [] ↔ ¬ InStack c sp := by
  simp [Leaves, movedTo]

theorem movedTo_cons (sp : Int) (m : Bool × Word) (ms : List (Bool × Word)) :
    movedTo sp (m :: ms) = movedTo (spAfter sp m) ms := rfl

/-- From inside the region, a sequence leaves it with its first move or after it. -/
theorem leaves_cons {c : Config} {sp : Int} (h : InStack c sp) :
    Leaves c sp (m :: ms) ↔ Leaves c (spAfter sp m) ms := by
  constructor
  · rintro ⟨k, hk, hout⟩
    cases k with
    | zero => exact absurd h hout
    | succ k => exact ⟨k, by simpa using hk, hout⟩
  · rintro ⟨k, hk, hout⟩
    exact ⟨k + 1, by simpa using hk, hout⟩

/-- A sequence that starts outside the region leaves it. -/
theorem leaves_of_not_inStack {c : Config} {sp : Int} (h : ¬ InStack c sp) : Leaves c sp ms := ⟨0, Nat.zero_le _, h⟩

/-- A small move of sp from inside the region does not wrap. -/
theorem spAfter_isWord (h : s.inv) (hin : InStack s.config s.sp) (hm : SmallMove s.config m.2) :
    isWord s.config.xlen (spAfter s.sp m) := by
  obtain ⟨⟨-, -, ⟨-, hsize, -⟩, -⟩, -⟩ := h
  obtain ⟨hlo, hhi⟩ := hin
  obtain ⟨hnonneg, hroom⟩ := hm
  unfold spAfter isWord
  unfold Config.stackLower at hlo
  split <;> omega

/-- The bound a move checks, the upper one going up and the lower one going down, is the only one it can pass (R118). -/
theorem spMove_bound_iff {c : Config} {sp : Int} (h : InStack c sp) (hm : (0 : Int) ≤ m.2) :
    (if m.1 then aboveStack c (spAfter sp m) else belowStack c (spAfter sp m)) = true ↔ ¬ InStack c (spAfter sp m) := by
  unfold InStack Config.stackLower at h ⊢
  obtain ⟨up, imm⟩ := m
  cases up with
  | true =>
    simp only [spAfter, if_true, aboveStack_iff]
    omega
  | false =>
    simp only [spAfter, Bool.false_eq_true, if_false, belowStack_iff]
    omega

/-- IDX_SP, as a field, names a register (R21). -/
theorem named_idxSp {c : Config} (h : c.registersValid) : Named c (c.idxSp : Int) := by
  obtain ⟨-, -, hr, -⟩ := h
  exact Config.isReg_iff.mp (Config.isReg_cast (hr c.idxSp (by simp)).2)

/-- The field IDX_SP reads sp (R24). -/
theorem State.reg_idxSp (h : s.config.registersValid) : s.reg (s.config.idxSp : Int) = s.sp := by
  rw [State.reg, Int.toNat_natCast, State.x_idxSp h]

/-- A write to IDX_SP is a write to sp (R24). -/
theorem State.setReg_idxSp (h : s.config.registersValid) (v : Word) :
    s.setReg (s.config.idxSp : Int) v = { s with sp := v } := by
  simp only [State.setReg, Int.toNat_natCast, State.setX, Config.bank_idxSp h]

/-- A small move from inside the region writes to sp where the integers say, and then checks its bound (R114, R116). -/
theorem exec_spMove (h : s.inv) (hin : InStack s.config s.sp) (hm : SmallMove s.config m.2) :
    exec (spMove s.config m) s = .next (State.advanceUnless { s with sp := spAfter s.sp m }
      (if m.1 then aboveStack s.config (spAfter s.sp m) else belowStack s.config (spAfter s.sp m))
      (spAfter s.sp m)) := by
  obtain ⟨⟨hv, -⟩, -⟩ := id h
  have hw : wrap s.config.xlen (spAfter s.sp m) = spAfter s.sp m :=
    wrap_eq (State.one_le_xlen h) (spAfter_isWord h hin hm)
  have hsp : fieldIs (s.config.idxSp : Int) s.config.idxSp = true := fieldIs_iff.mpr (Int.toNat_natCast _)
  have hregs (t : State) : s.checkRegs [(s.config.idxSp : Int), (s.config.idxSp : Int)] t = t :=
    State.checkRegs_of_named (by simpa using named_idxSp hv) t
  obtain ⟨up, imm⟩ := m
  cases up with
  | true =>
    have hadd : Alu.add s.config.xlen s.sp imm = spAfter s.sp (true, imm) := hw
    simp only [spMove, exec, execAddi, if_true, hregs, State.reg_idxSp hv, hadd, State.setReg_idxSp hv, hsp,
      Bool.true_and]
  | false =>
    have hsub : Alu.sub s.config.xlen s.sp imm = spAfter s.sp (false, imm) := hw
    simp only [spMove, exec, execSubi, Bool.false_eq_true, if_false, hregs, State.reg_idxSp hv, hsub,
      State.setReg_idxSp hv, hsp, Bool.true_and]

theorem runMoves_cons (hr : s.status.state = .running) {t : State} (he : exec (spMove s.config m) s = .next t) :
    runMoves s (m :: ms) = runMoves t ms := by
  simp only [runMoves, if_pos hr, he]

theorem runMoves_of_not_running (hr : s.status.state ≠ .running) : runMoves s ms = s := by
  cases ms with
  | nil => rfl
  | cons m ms => rw [runMoves, if_neg hr]

/-- A write of a word to sp keeps the invariant. -/
theorem State.inv_with_sp (h : s.inv) {v : Word} (hv : isWord s.config.xlen v) : State.inv { s with sp := v } := by
  have hinv := State.inv_setReg h (s.config.idxSp : Int) hv
  rwa [State.setReg_idxSp h.1.1] at hinv

/-- Moves of sp end in a fatal condition exactly if they leave the region: one move stops the machine exactly if it
leaves the region, and otherwise the moves after it start from inside the region again. -/
theorem runMoves_fatal_iff_leaves (h : s.inv) (hr : s.status.state = .running) (hin : InStack s.config s.sp)
    (hms : ∀ m ∈ ms, SmallMove s.config m.2) :
    (runMoves s ms).status.state = .fatal ↔ Leaves s.config s.sp ms := by
  induction ms generalizing s with
  | nil =>
    have hrun : (runMoves s []).status.state = .running := hr
    simp [hrun, leaves_nil, hin]
  | cons m ms ih =>
    obtain ⟨hm, hms⟩ := List.forall_mem_cons.mp hms
    have he := exec_spMove h hin hm
    have hbound := spMove_bound_iff hin hm.1
    rw [leaves_cons hin]
    obtain ⟨hbad, ht⟩ | ⟨hbad, ht⟩ := State.advanceUnless_cases { s with sp := spAfter s.sp m } _ (spAfter s.sp m) <;>
      rw [ht] at he <;> rw [runMoves_cons hr he]
    · have hstay : InStack s.config (spAfter s.sp m) := by
        by_contra hout
        exact absurd (hbound.mpr hout) (by simp [hbad])
      exact ih (State.inv_advance (State.inv_with_sp h (spAfter_isWord h hin hm))) hr hstay hms
    · rw [runMoves_of_not_running (by simp)]
      exact iff_of_true rfl (leaves_of_not_inStack (hbound.mp hbad))

end Sys2Proof.Machine
end

section
/-! The statement about the stack region. -/

namespace Sys2Proof.Proofs

open Sys2Proof.Machine Sys2Proof.Claims

/-- Settles O42, by induction on the moves. -/
theorem stackDiscipline : Obligations.StackDiscipline := fun _ _ => runMoves_fatal_iff_leaves

end Sys2Proof.Proofs
end

section
/-! SUPPORT. Reading back what the assembler's text is written from: the tokens of a line, the integer a numeral spells,
the mnemonic a name spells (R75 to R77). -/

namespace Sys2Proof.Laws.Text

open Sys2Proof.Machine.Assembler

/-! ## Characters -/

theorem not_isAlpha_of_isDigit {c : Char} (h : c.isDigit = true) : c.isAlpha = false := by
  have h9 : c.val ≤ '9'.val := of_decide_eq_true (Bool.and_eq_true_iff.mp h).2
  have hupper : ¬ 'A'.val ≤ c.val := fun hA => absurd (UInt32.le_trans hA h9) (by decide)
  have hlower : ¬ 'a'.val ≤ c.val := fun ha => absurd (UInt32.le_trans ha h9) (by decide)
  rw [Char.isAlpha, Char.isUpper, Char.isLower, decide_eq_false fun hu => hupper hu.1, decide_eq_false hlower]
  rfl

/-- What is no letter does not become a capital letter in upper case. -/
theorem toUpper_ne_of_not_isAlpha {c d : Char} (hc : c.isAlpha = false) (hd : d.isUpper = true) : c.toUpper ≠ d := by
  rintro rfl
  rw [Char.isUpper_toUpper_eq_isAlpha, hc] at hd
  cases hd

/-- A signed decimal spelling starts with a sign or a digit. -/
theorem decimalInt_cons (n : Int) : ∃ c cs, decimalInt n = c :: cs ∧ (c = '-' ∨ c.isDigit = true) := by
  unfold decimalInt
  split
  · exact ⟨_, _, rfl, .inl rfl⟩
  · obtain ⟨c, cs, h, hd⟩ := decimal_cons n.natAbs
    exact ⟨c, cs, h, .inr hd⟩

theorem not_isAlpha_of_numeral {c : Char} (h : c = '-' ∨ c.isDigit = true) : c.isAlpha = false := by
  obtain rfl | h := h
  · rfl
  · exact not_isAlpha_of_isDigit h

/-! ## Numerals as whole tokens -/

theorem wholeInt_decimalInt (n : Int) : wholeInt (decimalInt n) = some n := by
  have h := leadingInt_decimalInt n (rest := []) nofun
  rw [List.append_nil] at h
  rw [wholeInt, h]

theorem decimalInt_natCast (a : Nat) : decimalInt (a : Int) = decimal a := by
  rw [decimalInt, if_neg (by omega), Int.natAbs_natCast]

theorem wholeInt_decimal (a : Nat) : wholeInt (decimal a) = some (a : Int) := by
  rw [← decimalInt_natCast, wholeInt_decimalInt]

/-! ## Mnemonics -/

theorem mnemonicNamed_mnemonicName (m : Mnemonic) : mnemonicNamed (mnemonicName m) = some m := by
  cases m <;> decide

theorem mnemonicName_cons (m : Mnemonic) : ∃ c cs, mnemonicName m = c :: cs ∧ c.isUpper = true := by
  cases m <;> exact ⟨_, _, rfl, rfl⟩

theorem mnemonicName_isToken (m : Mnemonic) : mnemonicName m ≠ [] ∧ Solid (mnemonicName m) := by
  cases m <;> exact ⟨by decide, solid_of_all rfl⟩

/-- A numeral spells no mnemonic. -/
theorem mnemonicNamed_decimalInt (n : Int) : mnemonicNamed (decimalInt n) = none := by
  refine List.find?_eq_none.mpr fun m _ he => ?_
  obtain ⟨c, cs, hc, hn⟩ := decimalInt_cons n
  obtain ⟨d, ds, hd, hu⟩ := mnemonicName_cons m
  rw [beq_iff_eq, hc, hd, List.map_cons] at he
  exact toUpper_ne_of_not_isAlpha (not_isAlpha_of_numeral hn) hu (List.cons.inj he).1.symm

/-! ## Tokens separated by spaces -/

/-- Texts without white space, one space between each two, are the tokens of their line (R75). -/
theorem tokens_intercalate {ts : List (List Char)} (h : ∀ t ∈ ts, t ≠ [] ∧ Solid t) :
    tokens ([' '].intercalate ts) = ts := by
  induction ts with
  | nil => rfl
  | cons t ts ih =>
    obtain ⟨⟨hne, hs⟩, hts⟩ := List.forall_mem_cons.mp h
    cases ts with
    | nil => rw [List.intercalate_singleton, tokens_single hs hne]
    | cons u us =>
      rw [List.intercalate_cons_cons, List.append_assoc, List.singleton_append, tokens_append_space hs hne, ih hts]

end Sys2Proof.Laws.Text
end

section
/-! SUPPORT. Operand tokens (R78, R79): the canonical spelling of a register field, an immediate and a target reads
back, also before a comma or a closing bracket and behind an opening one. -/

namespace Sys2Proof.Machine.Assembler

open Sys2Proof.Laws.Text

variable {c : Config} {t : List Char} {v : Word}

/-- The text does not begin with a digit, so that a number read in front of it ends there. -/
abbrev NoDigit (rest : List Char) : Prop := ∀ d, rest.head? = some d → d.isDigit = false

/-- The text is a token and has the value, whatever follows that is no digit (R79: text after the digits is ignored). -/
def Spells (c : Config) (t : List Char) (v : Word) : Prop :=
  (t ≠ [] ∧ Solid t) ∧ ∀ rest, NoDigit rest → resolve c (t ++ rest) = v

theorem Spells.resolve_eq (h : Spells c t v) : resolve c t = v := by
  have he := h.2 [] nofun
  rwa [List.append_nil] at he

/-- A separator after a token is ignored. -/
theorem Spells.append_singleton (h : Spells c t v) {d : Char} (hd : d.isDigit = false) (hw : d.isWhitespace = false) :
    Spells c (t ++ [d]) v := by
  obtain ⟨⟨hne, hs⟩, hv⟩ := h
  refine ⟨⟨by simp, List.forall_mem_append.mpr ⟨hs, List.forall_mem_singleton.mpr hw⟩⟩, fun rest _ => ?_⟩
  rw [List.append_assoc]
  refine hv _ fun e he => ?_
  rwa [← Option.some.inj he]

/-- An opening bracket before a token is skipped (R79). -/
theorem Spells.cons_bracket (h : Spells c t v) : Spells c ('[' :: t) v := by
  obtain ⟨⟨-, hs⟩, hv⟩ := h
  exact ⟨⟨by simp, List.forall_mem_cons.mpr ⟨by decide, hs⟩⟩, hv⟩

/-! ## The cases of R79 -/

/-- A text without a bracket in front has nothing to skip. -/
theorem resolve_cons {d : Char} (hd : d ≠ '[') (cs : List Char) : resolve c (d :: cs) = resolveBare c (d :: cs) := by
  rw [resolve, List.dropWhile_cons_of_neg (by simpa using hd)]

theorem startsWith_cons (n d : Char) (ns ds : List Char) :
    startsWith (n :: ns) (d :: ds) = (d.toUpper == n && startsWith ns ds) := rfl

/-- A text that does not start with a letter starts with no register name. -/
theorem startsWith_of_not_isAlpha {n d : Char} (hd : d.isAlpha = false) (hn : n.isUpper = true) (ns ds : List Char) :
    startsWith (n :: ns) (d :: ds) = false := by
  rw [startsWith_cons, beq_eq_false_iff_ne.mpr (toUpper_ne_of_not_isAlpha hd hn), Bool.false_and]

/-- A name starts any text written with it. -/
theorem startsWith_append {name : List Char} (h : name.map Char.toUpper = name) (rest : List Char) :
    startsWith name (name ++ rest) = true := by
  rw [startsWith, List.take_left, h, beq_self_eq_true]

/-- A number sign is skipped (R79). -/
theorem resolve_numberSign (cs : List Char) : resolve c ('#' :: cs) = numberOrZero cs := by
  rw [resolve_cons (by decide), resolveBare]
  simp [nameZr, nameSp, nameLr, startsWith_of_not_isAlpha]

/-- A numeral is read as it stands (R79). -/
theorem resolve_numeral {d : Char} (hd : d = '-' ∨ d.isDigit = true) (cs : List Char) :
    resolve c (d :: cs) = numberOrZero (d :: cs) := by
  have ha : d.isAlpha = false := not_isAlpha_of_numeral hd
  have hne {e : Char} (he : ¬ (e = '-' ∨ e.isDigit = true)) : d ≠ e := fun h => he (h ▸ hd)
  have hz : startsWith nameZr (d :: cs) = false := startsWith_of_not_isAlpha ha rfl _ _
  have hs : startsWith nameSp (d :: cs) = false := startsWith_of_not_isAlpha ha rfl _ _
  have hl : startsWith nameLr (d :: cs) = false := startsWith_of_not_isAlpha ha rfl _ _
  rw [resolve_cons (hne (by decide)), resolveBare, hz, hs, hl]
  · rfl
  all_goals exact fun _ h => hne (by decide) (List.cons.inj h).1

/-- After the letter X of a general register comes its number (R79). -/
theorem resolve_general {d : Char} (hd : d.isDigit = true) (cs : List Char) :
    resolve c ('X' :: d :: cs) = afterX (d :: cs) := by
  have hz : startsWith nameZr ('X' :: d :: cs) = false := by
    rw [nameZr, startsWith_cons, startsWith_of_not_isAlpha (not_isAlpha_of_isDigit hd) rfl, Bool.and_false]
  rw [resolve_cons (by decide), resolveBare, hz]
  rfl

/-! ## What the canonical spellings spell -/

theorem numberOrZero_decimalInt (n : Int) {rest : List Char} (hr : NoDigit rest) :
    numberOrZero (decimalInt n ++ rest) = n := by
  rw [numberOrZero, leadingInt_decimalInt n hr]

theorem spells_immName (imm : Word) : Spells c (immName imm) imm := by
  refine ⟨⟨by simp [immName], List.forall_mem_cons.mpr ⟨by decide, decimalInt_solid imm⟩⟩, fun rest hr => ?_⟩
  rw [immName, List.cons_append, resolve_numberSign, numberOrZero_decimalInt imm hr]

theorem spells_decimalInt (n : Int) : Spells c (decimalInt n) n := by
  obtain ⟨d, cs, h, hd⟩ := decimalInt_cons n
  refine ⟨⟨by simp [h], decimalInt_solid n⟩, fun rest hr => ?_⟩
  have hv := numberOrZero_decimalInt n hr
  rw [h, List.cons_append] at hv ⊢
  rw [resolve_numeral hd, hv]

/-- The three register names, in any text that starts with one (R79, R80). -/
theorem resolve_name (rest : List Char) :
    resolve c (nameZr ++ rest) = c.idxZr ∧ resolve c (nameSp ++ rest) = c.idxSp ∧
      resolve c (nameLr ++ rest) = c.idxLr := by
  have hz : startsWith nameZr (nameZr ++ rest) = true := startsWith_append rfl rest
  have hs : startsWith nameSp (nameSp ++ rest) = true := startsWith_append rfl rest
  have hl : startsWith nameLr (nameLr ++ rest) = true := startsWith_append rfl rest
  have hzs : startsWith nameZr (nameSp ++ rest) ≠ true := nofun
  have hzl : startsWith nameZr (nameLr ++ rest) ≠ true := nofun
  have hsl : startsWith nameSp (nameLr ++ rest) ≠ true := nofun
  refine ⟨(resolve_cons (by decide) _).trans ?_, (resolve_cons (by decide) _).trans ?_,
    (resolve_cons (by decide) _).trans ?_⟩
  · exact if_pos hz
  · exact (if_neg hzs).trans (if_pos hs)
  · exact (if_neg hzl).trans ((if_neg hsl).trans (if_pos hl))

/-- The name of a register index spells the index (R80, R83). -/
theorem spells_formatOperand (c : Config) (i : Nat) : Spells c (formatOperand c i) (i : Int) := by
  unfold formatOperand
  split_ifs with hz hs hl
  · exact ⟨⟨by decide, solid_of_all rfl⟩, fun rest _ => hz ▸ (resolve_name rest).1⟩
  · exact ⟨⟨by decide, solid_of_all rfl⟩, fun rest _ => hs ▸ (resolve_name rest).2.1⟩
  · exact ⟨⟨by decide, solid_of_all rfl⟩, fun rest _ => hl ▸ (resolve_name rest).2.2⟩
  · obtain ⟨d, ds, h, hd⟩ := decimal_cons i
    refine ⟨⟨by simp, List.forall_mem_cons.mpr ⟨by decide, decimal_solid i⟩⟩, fun rest hr => ?_⟩
    have hx : afterX (decimal i ++ rest) = i := by rw [afterX, leadingNat_decimal i hr]
    rw [List.cons_append]
    rw [h, List.cons_append] at hx ⊢
    rw [resolve_general hd, hx]

theorem spells_fieldName (h : c.isReg v = true) : Spells c (fieldName c v) v := by
  rw [(Config.isReg_toNat h).2]
  exact spells_formatOperand c v.toNat

end Sys2Proof.Machine.Assembler
end

section
/-! SUPPORT. The record of a line (R77, R78): its slots are words, and what each holds. -/

namespace Sys2Proof.Machine.Assembler

open Sys2Proof.Claims

variable {c : Config} {ops : List (List Char)} {t : List Char}

/-! ## Slots -/

theorem toSlot_of_isWord {n : Int} (h : isWord c.xlen n) : toSlot c n = n := if_pos h

theorem toSlot_isWord (h : 1 ≤ c.xlen) (n : Int) : isWord c.xlen (toSlot c n) := by
  unfold toSlot
  split
  · assumption
  · exact wrap_isWord h _

theorem operandSlot_of_le {arity k : Nat} (h : arity ≤ k) : operandSlot c arity ops k = 0 := if_neg (Nat.not_lt.mpr h)

theorem operandSlot_of_absent {arity k : Nat} (h : ops[k]? = none) : operandSlot c arity ops k = 0 := by
  rw [operandSlot, h, ite_self]

theorem operandSlot_of_present {arity k : Nat} (hk : k < arity) (h : ops[k]? = some t) :
    operandSlot c arity ops k = toSlot c (resolve c t) := by
  rw [operandSlot, if_pos hk, h]

theorem operandSlot_isWord (h : 1 ≤ c.xlen) (arity k : Nat) : isWord c.xlen (operandSlot c arity ops k) := by
  unfold operandSlot
  split_ifs
  · cases ops[k]? with
    | none => exact isWord_zero _
    | some t => exact toSlot_isWord h _
  · exact isWord_zero _

theorem slotRead_operandSlot (arity k : Nat) : SlotRead c ops arity k (operandSlot c arity ops k) :=
  ⟨operandSlot_of_le, operandSlot_of_absent, fun _ hk ht hw => by
    rw [operandSlot_of_present hk ht, toSlot_of_isWord hw]⟩

/-! ## Records -/

theorem recordOf_fits (h : 1 ≤ c.xlen) (ts : List (List Char)) : (recordOf c ts).fits c.xlen := by
  cases ts with
  | nil => exact Record.zero_fits _
  | cons t ops =>
    exact ⟨toSlot_isWord h _, operandSlot_isWord h _ 0, operandSlot_isWord h _ 1, operandSlot_isWord h _ 2⟩

/-- The record of an opcode token: slot 0 is its number, if that is a word, and under that number's arity the operand
slots are read (R77, R78). -/
theorem recordOf_of_opcodeNumber {n : Int} {arity : Nat} (hn : opcodeNumber c t = n) (ha : operandCount c n = arity) :
    (isWord c.xlen n → (recordOf c (t :: ops)).s0 = n) ∧ SlotsRead c ops arity (recordOf c (t :: ops)) := by
  subst hn ha
  exact ⟨toSlot_of_isWord, slotRead_operandSlot _ 0, slotRead_operandSlot _ 1, slotRead_operandSlot _ 2⟩

/-! ## Opcode numbers -/

theorem opcodeNumber_of_mnemonicNamed {m : Mnemonic} (h : mnemonicNamed t = some m) :
    opcodeNumber c t = c.opc.number m := by
  rw [opcodeNumber, h]

theorem opcodeNumber_of_wholeInt {n : Int} (hm : mnemonicNamed t = none) (h : wholeInt t = some n) :
    opcodeNumber c t = n := by
  rw [opcodeNumber, hm, h, Option.getD_some]

theorem opcodeNumber_of_malformed (hm : mnemonicNamed t = none) (h : wholeInt t = none) : opcodeNumber c t = 0 := by
  rw [opcodeNumber, hm, h, Option.getD_none]

theorem arity_format (m : Mnemonic) : m.format.arity = arityOf m := by
  cases m <;> rfl

theorem operandCount_number (h : c.opc.valid) (m : Mnemonic) : operandCount c (c.opc.number m) = arityOf m := by
  rw [operandCount, Opcodes.lookup_number h]
  exact arity_format m

theorem operandCount_of_not_mem {n : Int} (h : n ∉ c.opc.toList) : operandCount c n = 3 := by
  rw [operandCount, Opcodes.lookup_eq_none.mpr h]

/-- Every opcode number is a word, as it is compared with slot 0 (R6). -/
theorem number_isWord (h : c.wordsValid) (m : Mnemonic) : isWord c.xlen (c.opc.number m) :=
  h.2 _ (c.opc.map_number ▸ List.mem_map_of_mem m.mem_all)

/-! ## Lines -/

theorem parseLine_of_tokens {line address : List Char} {ts : List (List Char)} (h : tokens line = address :: ts) :
    parseLine c line = some ((wholeInt address).getD 0, recordOf c ts) := by
  rw [parseLine, h]

/-- All that a line can give: nothing, or an address and the record of the tokens after it. -/
theorem parseLine_cases {line : List Char} {a : Int} {r : Record} (h : parseLine c line = some (a, r)) :
    ∃ ts, r = recordOf c ts := by
  cases ht : tokens line with
  | nil => rw [parseLine, ht] at h; cases h
  | cons t ts =>
    rw [parseLine_of_tokens ht] at h
    exact ⟨ts, (Prod.ext_iff.mp (Option.some.inj h)).2.symm⟩

end Sys2Proof.Machine.Assembler
end

section
/-! SUPPORT. The canonical line (R84): its tokens, and the record they assemble to. -/

namespace Sys2Proof.Machine.Assembler

open Sys2Proof.Laws.Text

variable {c : Config} {i : Instr} {m : Mnemonic}

/-- The operand tokens of the canonical spelling, each with the separator that follows it in the same token (R84). -/
def operandTokens (c : Config) : Instr → List (List Char)
  | .add rd rn rm => [fieldName c rd ++ [','], fieldName c rn ++ [','], fieldName c rm]
  | .addi rd rn imm => [fieldName c rd ++ [','], fieldName c rn ++ [','], immName imm]
  | .sub rd rn rm => [fieldName c rd ++ [','], fieldName c rn ++ [','], fieldName c rm]
  | .subi rd rn imm => [fieldName c rd ++ [','], fieldName c rn ++ [','], immName imm]
  | .ldur rt rn imm => [fieldName c rt ++ [','], '[' :: fieldName c rn ++ [','], immName imm ++ [']']]
  | .stur rt rn imm => [fieldName c rt ++ [','], '[' :: fieldName c rn ++ [','], immName imm ++ [']']]
  | .lsl rd rn imm => [fieldName c rd ++ [','], fieldName c rn ++ [','], immName imm]
  | .cbz rt target => [fieldName c rt ++ [','], decimalInt target]
  | .cbnz rt target => [fieldName c rt ++ [','], decimalInt target]
  | .br rn => [fieldName c rn]
  | .bl target => [decimalInt target]
  | .b target => [decimalInt target]
  | .noInstruction _ => []

/-- The canonical spelling is its mnemonic and its operand tokens with a space between each two. -/
theorem canonicalText_eq_intercalate (h : i.mnemonic = some m) :
    canonicalText c i = [' '].intercalate (mnemonicName m :: operandTokens c i) := by
  cases i <;> cases h <;> simp [canonicalText, operandTokens, head, comma, List.intercalate_cons_cons]

/-- The operand tokens of a mnemonic's instruction spell its operands, in slot order. -/
theorem operandTokens_spell (h : i.mnemonic = some m) (hr : ∀ w ∈ i.regFields, c.isReg w = true) :
    List.Forall₂ (Spells c) (operandTokens c i) i.operands := by
  have hfield {w : Word} (hw : w ∈ i.regFields) : Spells c (fieldName c w) w := spells_fieldName (hr w hw)
  have hcomma {t : List Char} {v : Word} (ht : Spells c t v) : Spells c (t ++ [',']) v :=
    ht.append_singleton (by decide) (by decide)
  have hclose {t : List Char} {v : Word} (ht : Spells c t v) : Spells c (t ++ [']']) v :=
    ht.append_singleton (by decide) (by decide)
  cases i with
  | add rd rn rm | sub rd rn rm =>
    exact .cons (hcomma (hfield (.head _))) (.cons (hcomma (hfield (.tail _ (.head _))))
      (.cons (hfield (.tail _ (.tail _ (.head _)))) .nil))
  | addi rd rn imm | subi rd rn imm | lsl rd rn imm =>
    exact .cons (hcomma (hfield (.head _))) (.cons (hcomma (hfield (.tail _ (.head _))))
      (.cons (spells_immName imm) .nil))
  | ldur rt rn imm | stur rt rn imm =>
    exact .cons (hcomma (hfield (.head _))) (.cons (hcomma (hfield (.tail _ (.head _))).cons_bracket)
      (.cons (hclose (spells_immName imm)) .nil))
  | cbz rt target | cbnz rt target => exact .cons (hcomma (hfield (.head _))) (.cons (spells_decimalInt target) .nil)
  | br rn => exact .cons (hfield (.head _)) .nil
  | bl target | b target => exact .cons (spells_decimalInt target) .nil
  | noInstruction opcode => cases h

/-- Tokens that spell words, as many as the arity allows, give the slots those words. -/
theorem operandSlot_of_spells {ops : List (List Char)} {vs : List Word} (h : List.Forall₂ (Spells c) ops vs)
    (hw : ∀ v ∈ vs, isWord c.xlen v) {arity : Nat} (ha : vs.length ≤ arity) (k : Nat) :
    operandSlot c arity ops k = vs.getD k 0 := by
  by_cases hk : k < vs.length
  · have hops : k < ops.length := h.length_eq ▸ hk
    have hv : resolve c ops[k] = vs[k] := (h.get hops hk).resolve_eq
    rw [operandSlot_of_present (hk.trans_le ha) (List.getElem?_eq_getElem hops), hv,
      toSlot_of_isWord (hw _ (List.getElem_mem hk)), List.getD_eq_getElem _ _ hk]
  · have hops : ops.length ≤ k := h.length_eq ▸ Nat.not_lt.mp hk
    rw [operandSlot_of_absent (List.getElem?_eq_none hops), List.getD_eq_default _ _ (Nat.not_lt.mp hk)]

/-- The encoder writes the opcode number, then the operands, then zeros (R63 to R68). -/
theorem encode_eq_operands (o : Opcodes) (h : i.mnemonic = some m) :
    encode o i = ⟨o.number m, i.operands.getD 0 0, i.operands.getD 1 0, i.operands.getD 2 0⟩ := by
  cases i <;> cases h <;> rfl

/-- An instruction has as many operands as its mnemonic's arity (R78). -/
theorem operands_length (h : i.mnemonic = some m) : i.operands.length = Claims.arityOf m := by
  cases i <;> cases h <;> rfl

/-- The tokens of a mnemonic's instruction assemble to its record. -/
theorem recordOf_operandTokens (hc : c.valid) (h : i.mnemonic = some m) (hf : i.fits c.xlen = true)
    (hr : ∀ w ∈ i.regFields, c.isReg w = true) :
    recordOf c (mnemonicName m :: operandTokens c i) = encode c.opc i := by
  obtain ⟨-, hopc, -, hwords, -⟩ := hc
  have hslot (k : Nat) := operandSlot_of_spells (operandTokens_spell h hr) (fits_iff.mp hf) (operands_length h).le k
  rw [recordOf, opcodeNumber_of_mnemonicNamed (mnemonicNamed_mnemonicName m), operandCount_number hopc,
    toSlot_of_isWord (number_isWord hwords m), encode_eq_operands c.opc h]
  simp only [hslot]

/-- A data word alone assembles to the record with that word in slot 0. -/
theorem recordOf_decimalInt {n : Int} (h : isWord c.xlen n) : recordOf c [decimalInt n] = ⟨n, 0, 0, 0⟩ := by
  have habsent (arity k : Nat) : operandSlot c arity [] k = 0 := operandSlot_of_absent List.getElem?_nil
  rw [recordOf, opcodeNumber_of_wholeInt (mnemonicNamed_decimalInt n) (wholeInt_decimalInt n), toSlot_of_isWord h]
  simp only [habsent]

/-- The tokens of the canonical spelling of a mnemonic's instruction. -/
theorem tokens_canonicalText (h : i.mnemonic = some m) (hr : ∀ w ∈ i.regFields, c.isReg w = true) :
    tokens (canonicalText c i) = mnemonicName m :: operandTokens c i := by
  rw [canonicalText_eq_intercalate h]
  obtain ⟨htokens, -⟩ := (List.forall₂_and_left _ _).mp (operandTokens_spell h hr)
  exact tokens_intercalate (List.forall_mem_cons.mpr ⟨mnemonicName_isToken m, htokens⟩)

/-- The canonical spelling of a well-formed instruction assembles to its record (R84). -/
theorem recordOf_canonicalText (hc : c.valid) (hi : i.wf c = true) :
    recordOf c (tokens (canonicalText c i)) = encode c.opc i := by
  simp only [Instr.wf, Bool.and_eq_true, List.all_eq_true] at hi
  obtain ⟨⟨-, hf⟩, hr⟩ := hi
  cases hm : i.mnemonic with
  | some m => rw [tokens_canonicalText hm hr, recordOf_operandTokens hc hm hf hr]
  | none =>
    obtain ⟨opcode, rfl⟩ := Instr.mnemonic_eq_none.mp hm
    obtain ⟨hne, hs⟩ := (spells_decimalInt (c := c) opcode).1
    rw [canonicalText, tokens_single hs hne, recordOf_decimalInt (fits_iff.mp hf opcode (.head _))]
    rfl

/-- A line of a decimal address and a text after a space. -/
theorem parseLine_decimal (a : Nat) (text : List Char) :
    parseLine c (decimal a ++ ' ' :: text) = some ((a : Int), recordOf c (tokens text)) := by
  rw [parseLine_of_tokens (tokens_append_space (decimal_solid a) (decimal_ne_nil a) text), wholeInt_decimal,
    Option.getD_some]

end Sys2Proof.Machine.Assembler
end

section
/-! The statements about the assembler's text. -/

namespace Sys2Proof.Proofs

open Sys2Proof.Machine Sys2Proof.Machine.Assembler Sys2Proof.Claims

/-- Settles O54: the address and each token of the canonical spelling read back, separators and all. -/
theorem canonicalLineAssembles : Obligations.CanonicalLineAssembles := by
  intro c a i hc hi
  rw [canonicalLine, parseLine_decimal, recordOf_canonicalText hc hi]

/-- Settles O53: the three names, and X with a decimal number, are read as R79 says. -/
theorem resolveOfFormat : Obligations.ResolveOfFormat := fun c i _ _ => (spells_formatOperand c i).resolve_eq

/-- Settles O55: the opcode token decides slot 0 and the arity, by one of the four cases. -/
theorem arityRule : Obligations.ArityRule := by
  intro c line t address ops ⟨_, hopc, _, hwords, _⟩ hline
  refine ⟨_, _, parseLine_of_tokens hline, fun m hm => ?mnemonic, fun hm => ⟨fun m hn => ?number,
    fun n hn hout => ?other, fun hn => ?malformed⟩⟩
  case mnemonic =>
    exact (recordOf_of_opcodeNumber (opcodeNumber_of_mnemonicNamed hm) (operandCount_number hopc m)).imp_left
      (· (number_isWord hwords m))
  case number =>
    exact (recordOf_of_opcodeNumber (opcodeNumber_of_wholeInt hm hn) (operandCount_number hopc m)).imp_left
      (· (number_isWord hwords m))
  case other => exact recordOf_of_opcodeNumber (opcodeNumber_of_wholeInt hm hn) (operandCount_of_not_mem hout)
  case malformed =>
    exact (recordOf_of_opcodeNumber (opcodeNumber_of_malformed hm hn) (operandCount_of_not_mem hopc.2)).imp_left
      (· (isWord_zero _))

/-- Settles O56: every slot is 0 or made by toSlot, which answers words. -/
theorem assembledRecordsAreWords : Obligations.AssembledRecordsAreWords := by
  intro c line a r ⟨_, _, _, ⟨hxlen, _⟩, _⟩ h
  obtain ⟨ts, rfl⟩ := parseLine_cases h
  exact recordOf_fits (by omega) ts

end Sys2Proof.Proofs
end

section
/-! SUPPORT. The encoder on a decoded record (R63 to R68), and the numbers of STATUS (R6). -/

namespace Sys2Proof

/-- The record the encoder writes for what a selected mnemonic decodes to: the operand slots of its format, and zeros
after them. -/
theorem encode_decode_of_lookup {o : Opcodes} {r : Record} {m : Mnemonic} (h : o.lookup r.s0 = some m) :
    encode o (decode o r) =
      ⟨r.s0, r.s1, if 2 ≤ m.format.arity then r.s2 else 0, if 3 ≤ m.format.arity then r.s3 else 0⟩ := by
  rw [decode, h, ← Opcodes.number_of_lookup h]
  cases m <;> rfl

end Sys2Proof

namespace Sys2Proof.Machine

variable {k : Codes}

/-- The states are numbered one to one. -/
theorem RunState.code_injective (h : k.valid) : Function.Injective (RunState.code k) := fun a b =>
  have hd : ([RunState.running, .halted, .fatal].map (RunState.code k)).Nodup := h.1
  List.inj_on_of_nodup_map hd (by cases a <;> simp) (by cases b <;> simp)

/-- The halt reasons are numbered one to one. -/
theorem HaltReason.code_injective (h : k.valid) : Function.Injective (HaltReason.code k) := fun a b =>
  have hd : ([HaltReason.none, .brZr, .noInstruction].map (HaltReason.code k)).Nodup := h.2.1
  List.inj_on_of_nodup_map hd (by cases a <;> simp) (by cases b <;> simp)

/-- The fatal causes are numbered one to one. -/
theorem Cause.code_injective (h : k.valid) : Function.Injective (Cause.code k) := fun a b =>
  have hd : ([Cause.none, .stackOverflow, .pcInvalid, .memBounds, .regIndex].map (Cause.code k)).Nodup := h.2.2
  List.inj_on_of_nodup_map hd (by cases a <;> simp) (by cases b <;> simp)

end Sys2Proof.Machine
end

section
/-! The statements about the encoder, words and the numbers of STATUS. -/

namespace Sys2Proof.Proofs

open Sys2Proof.Machine

/-- Settles O3: a selected mnemonic has the number that selected it, and an unrecognized opcode is kept as it is. -/
theorem encodeOfDecode : Obligations.EncodeOfDecode := by
  intro o r
  cases h : o.lookup r.s0 with
  | none =>
    rw [decode_eq_noInstruction.mpr ⟨h, rfl⟩]
    rfl
  | some m => exact encode_decode_of_lookup h

/-- Settles O57: words that are congruent modulo 2^n are equal, so the wrap is the only one. -/
theorem wordsOfEveryWidth : Obligations.WordsOfEveryWidth := by
  refine fun n v hn => ⟨fun u => ⟨?_, fun ⟨hu, hd⟩ => ?_⟩, unsigned_lt n v, wrap_unsigned hn⟩
  · rintro rfl
    exact ⟨wrap_isWord hn v, dvd_wrap_sub n v⟩
  · rw [← wrap_congr hd, wrap_eq hn hu]

/-- Settles O58: states, reasons and causes are each numbered one to one. -/
theorem statusNumbersTellTheOutcome : Obligations.StatusNumbersTellTheOutcome := by
  intro k ⟨state, reason, cause, info⟩ ⟨state', reason', cause', info'⟩ hk h
  simp only [Status.numbers, Prod.mk.injEq] at h
  obtain ⟨hs, hr, hc, rfl⟩ := h
  obtain rfl := RunState.code_injective hk hs
  obtain rfl := HaltReason.code_injective hk hr
  obtain rfl := Cause.code_injective hk hc
  rfl

end Sys2Proof.Proofs
end
